-- ==== Sys2Proof/Word.lean ====
section
/-! DEFINITION. The widths of the machine's values (00_scope.md R4, R5; 10_state.md R20).
Every value is unsigned and no instruction sign extends (R5), so the plain bit vectors suffice. -/
namespace Sys2Proof

/-- An 8-bit value: a general register, a timer, a memory byte (R4, R21, R26, R29). -/
abbrev Byte := BitVec 8

/-- A 16-bit value: `pc`, `I`, a return address, an instruction word (R4, R23, R24, R25, R90). -/
abbrev Word := BitVec 16

/-- A 4-bit field: a register number, a row count, a key number (R91, R27). -/
abbrev Nibble := BitVec 4

/-- A 12-bit immediate address `nnn` (R91). -/
abbrev Addr := BitVec 12

/-- `zext_16` of a byte (R5). -/
abbrev Byte.toWord (b : Byte) : Word := b.setWidth 16

/-- `zext_16` of a 12-bit address (R5, R93). -/
abbrev Addr.toWord (a : Addr) : Word := a.setWidth 16

/-- `zext_8` of a 4-bit number (R5). -/
abbrev Nibble.toByte (k : Nibble) : Byte := k.setWidth 8

end Sys2Proof
end

