-- ==== Sys2Proof/Config.lean ====
section
/-! DEFINITION. What one build of the core fixes: the constants and the configuration record of
00_scope.md R4, and the free value that stands for the random source (10_state.md R35). -/
namespace Sys2Proof

namespace Config

/-- `MEM_SIZE`: bytes of the active bank and ceiling of the fetch (R4, R29, R121; log 9). -/
abbrev memSize : Nat := 0x1000

/-- `ENTRY`: the program entry point and the reset value of `pc` (R4, R23). -/
abbrev entry : Word := 0x0200#16

/-- `FONT_BASE`: the address of glyph 0 (R4, R76). -/
abbrev fontBase : Nat := 0x0050

/-- `FONT_GLYPH_BYTES`: bytes of one glyph (R4, R76). -/
abbrev fontGlyphBytes : Nat := 5

/-- The length of `FONT_DATA`: sixteen glyphs of five bytes (R4, R76). -/
abbrev fontBytes : Nat := 80

/-- `SCREEN_W` (R4, R30). -/
abbrev screenW : Nat := 64

/-- `SCREEN_H` (R4, R30). -/
abbrev screenH : Nat := 32

/-- `STACK_DEPTH` (R4, R25). -/
abbrev stackDepth : Nat := 16

/-- `NUM_BANKS` (R4, R29, R65; log 25). -/
abbrev numBanks : Nat := 1

/-- FREE VALUE. The byte the random source answers to the `n`-th draw (`draw8()`, R6, R35): no law,
no seed, nothing Lean could compute with, so a claim about RANDOM holds whatever is drawn (log 4). -/
opaque randomByte : Nat → Byte

end Config

/-- `IDX_POLICY`: what a key or glyph number above 15 does (R4, R212; log 2). -/
inductive IdxPolicy where
  /-- the instruction has no next state -/
  | refuse
  /-- the low four bits are used -/
  | mask4
deriving DecidableEq, Repr

/-- The immutable configuration `cfg` (00_scope.md R4; 10_state.md R32). All combinations are legal;
no instruction and no host operation writes it. A `true` is the table's 1. -/
structure Cfg where
  /-- `q_vf_reset`: OR, AND, XOR write 0 to `VF`. -/
  qVfReset : Bool
  /-- `q_index_inc`: STORE and LOAD add `x + 1` to `I`. -/
  qIndexInc : Bool
  /-- `q_vblank_wait`: DRAW renders only when the vblank latch is set. -/
  qVblankWait : Bool
  /-- `q_clip`: `true` clipping, `false` wraparound. -/
  qClip : Bool
  /-- `q_shift_ignores_y`: SHL and SHR shift `Vx`; otherwise they shift `Vy` into `Vx`. -/
  qShiftIgnoresY : Bool
  /-- `q_jump_vx`: the offset jump's register is `Vx`; otherwise `V0`. -/
  qJumpVx : Bool
  /-- `p_mov_resets_vf`: MOV writes 0 to `VF` (R141; log 14). -/
  pMovResetsVf : Bool
  /-- `IDX_POLICY` (R212). -/
  idxPolicy : IdxPolicy
  /-- `FONT_DATA`: the bytes reset copies to the font table (R76; log 10). -/
  fontData : Vector Byte Config.fontBytes
deriving DecidableEq, Repr

end Sys2Proof
end

