-- ==== Sys2Proof/Syntax.lean ====
section
/-! DEFINITION. The 34 instructions of 30_encoding.md R95, one constructor per row of
spec/opcode_table.json, with the operand fields that row gives it (R91, R92). -/
namespace Sys2Proof

/-- The operation tags of R95. `x` and `y` are register numbers, `n` a row count, `nn` a byte
immediate, `nnn` a 12-bit address. -/
inductive Instr where
  /-- `00E0` (R167) -/
  | cls
  /-- `00EE` (R180) -/
  | ret
  /-- `1NNN` (R182) -/
  | jmp (nnn : Addr)
  /-- `2NNN` (R181) -/
  | call (nnn : Addr)
  /-- `3XNN` (R183) -/
  | skipEqImm (x : Nibble) (nn : Byte)
  /-- `4XNN` (R184) -/
  | skipNeImm (x : Nibble) (nn : Byte)
  /-- `5XY0` (R185) -/
  | skipEqReg (x y : Nibble)
  /-- `6XNN` (R187) -/
  | movImm (x : Nibble) (nn : Byte)
  /-- `7XNN` (R188) -/
  | addImm (x : Nibble) (nn : Byte)
  /-- `8XY0` (R141) -/
  | mov (x y : Nibble)
  /-- `8XY1` (R142) -/
  | or (x y : Nibble)
  /-- `8XY2` (R143) -/
  | and (x y : Nibble)
  /-- `8XY3` (R144) -/
  | xor (x y : Nibble)
  /-- `8XY4` (R145) -/
  | add (x y : Nibble)
  /-- `8XY5` (R146) -/
  | sub (x y : Nibble)
  /-- `8XY6` (R147) -/
  | shr (x y : Nibble)
  /-- `8XY7` (R148) -/
  | rsub (x y : Nibble)
  /-- `8XYE` (R149) -/
  | shl (x y : Nibble)
  /-- `9XY0` (R186) -/
  | skipNeReg (x y : Nibble)
  /-- `ANNN` (R189) -/
  | ldi (nnn : Addr)
  /-- `BNNN` (R190). The table gives this row two fields that overlap, `nnn` and `x = nnn[11:8]`;
  both are kept, and `Instr.wf` checks that they agree (log 26). -/
  | jmpOff (nnn : Addr) (x : Nibble)
  /-- `CXNN` (R191) -/
  | random (x : Nibble) (nn : Byte)
  /-- `DXYN` (R160) -/
  | draw (x y n : Nibble)
  /-- `EX9E` (R200) -/
  | skipKey (x : Nibble)
  /-- `EXA1` (R201) -/
  | skipNkey (x : Nibble)
  /-- `FX07` (R202) -/
  | getDelay (x : Nibble)
  /-- `FX0A` (R203) -/
  | waitKey (x : Nibble)
  /-- `FX15` (R204) -/
  | setDelay (x : Nibble)
  /-- `FX18` (R205) -/
  | setSound (x : Nibble)
  /-- `FX1E` (R206) -/
  | addIndex (x : Nibble)
  /-- `FX29` (R207) -/
  | font (x : Nibble)
  /-- `FX33` (R208) -/
  | bcd (x : Nibble)
  /-- `FX55` (R209) -/
  | store (x : Nibble)
  /-- `FX65` (R210) -/
  | load (x : Nibble)
deriving DecidableEq, Repr

end Sys2Proof
end

