-- ==== Sys2Proof/WellFormed.lean ====
section
/-! DEFINITION. Which terms of `Instr` an instruction word can stand for. The field widths are in the
types; the one relation between fields is that of the offset jump (30_encoding.md R91, R92). -/
namespace Sys2Proof

/-- `x = nnn[11:8]` for the offset jump, whose two fields overlap (R91, R92); every other term is an
instruction of the machine. -/
def Instr.wf : Instr → Bool
  | .jmpOff nnn x => decide (x = nnn.extractLsb' 8 4)
  | .cls | .ret | .jmp _ | .call _ | .skipEqImm _ _ | .skipNeImm _ _ | .skipEqReg _ _ => true
  | .movImm _ _ | .addImm _ _ | .mov _ _ | .or _ _ | .and _ _ | .xor _ _ | .add _ _ => true
  | .sub _ _ | .shr _ _ | .rsub _ _ | .shl _ _ | .skipNeReg _ _ | .ldi _ | .random _ _ => true
  | .draw _ _ _ | .skipKey _ | .skipNkey _ | .getDelay _ | .waitKey _ | .setDelay _ => true
  | .setSound _ | .addIndex _ | .font _ | .bcd _ | .store _ | .load _ => true

end Sys2Proof
end

