-- ==== Sys2Proof/Decode.lean ====
section
/-! DEFINITION. Decoding and encoding (30_encoding.md R90 to R98): a total decoder of any bytes, the
encoder, and the opcode map of R95. The bit patterns are the spec's decisions D2, D4, D30 (log 12). -/
namespace Sys2Proof

/-- `op`, bits 15:12 (R91). -/
def fieldOp (w : Word) : Nibble := w.extractLsb' 12 4

/-- `x`, bits 11:8 (R91). -/
def fieldX (w : Word) : Nibble := w.extractLsb' 8 4

/-- `y`, bits 7:4 (R91). -/
def fieldY (w : Word) : Nibble := w.extractLsb' 4 4

/-- `n4`, bits 3:0 (R91). -/
def fieldN4 (w : Word) : Nibble := w.extractLsb' 0 4

/-- `nn`, bits 7:0 (R91). -/
def fieldNn (w : Word) : Byte := w.extractLsb' 0 8

/-- `nnn`, bits 11:0 (R91). -/
def fieldNnn (w : Word) : Addr := w.extractLsb' 0 12

/-- Family 0: the whole word must be `00E0` or `00EE` (R94, R96(a)). -/
def decodeFamily0 (w : Word) : Option Instr :=
  match fieldNnn w with
  | 0x0E0#12 => some .cls
  | 0x0EE#12 => some .ret
  | _ => none

/-- Families 5 and 9: the tail must be 0 (R94, R96(b), R96(d)). -/
def decodeTail0 (w : Word) (i : Instr) : Option Instr :=
  match fieldN4 w with
  | 0x0#4 => some i
  | _ => none

/-- Family 8: the tail selects among nine operations (R94, R95, R96(c)). -/
def decodeFamily8 (w : Word) : Option Instr :=
  match fieldN4 w with
  | 0x0#4 => some (.mov (fieldX w) (fieldY w))
  | 0x1#4 => some (.or (fieldX w) (fieldY w))
  | 0x2#4 => some (.and (fieldX w) (fieldY w))
  | 0x3#4 => some (.xor (fieldX w) (fieldY w))
  | 0x4#4 => some (.add (fieldX w) (fieldY w))
  | 0x5#4 => some (.sub (fieldX w) (fieldY w))
  | 0x6#4 => some (.shr (fieldX w) (fieldY w))
  | 0x7#4 => some (.rsub (fieldX w) (fieldY w))
  | 0xE#4 => some (.shl (fieldX w) (fieldY w))
  | _ => none

/-- Family E: the bottom byte selects among two operations (R94, R95, R96(e)). -/
def decodeFamilyE (w : Word) : Option Instr :=
  match fieldNn w with
  | 0x9E#8 => some (.skipKey (fieldX w))
  | 0xA1#8 => some (.skipNkey (fieldX w))
  | _ => none

/-- Family F: the bottom byte selects among nine operations (R94, R95, R96(f)). -/
def decodeFamilyF (w : Word) : Option Instr :=
  match fieldNn w with
  | 0x07#8 => some (.getDelay (fieldX w))
  | 0x0A#8 => some (.waitKey (fieldX w))
  | 0x15#8 => some (.setDelay (fieldX w))
  | 0x18#8 => some (.setSound (fieldX w))
  | 0x1E#8 => some (.addIndex (fieldX w))
  | 0x29#8 => some (.font (fieldX w))
  | 0x33#8 => some (.bcd (fieldX w))
  | 0x55#8 => some (.store (fieldX w))
  | 0x65#8 => some (.load (fieldX w))
  | _ => none

/-- `decode(w)` (R94, R122): a pure, total function of the word; `none` is `InvalidInstruction`. -/
def decodeWord (w : Word) : Option Instr :=
  match fieldOp w with
  | 0x0#4 => decodeFamily0 w
  | 0x1#4 => some (.jmp (fieldNnn w))
  | 0x2#4 => some (.call (fieldNnn w))
  | 0x3#4 => some (.skipEqImm (fieldX w) (fieldNn w))
  | 0x4#4 => some (.skipNeImm (fieldX w) (fieldNn w))
  | 0x5#4 => decodeTail0 w (.skipEqReg (fieldX w) (fieldY w))
  | 0x6#4 => some (.movImm (fieldX w) (fieldNn w))
  | 0x7#4 => some (.addImm (fieldX w) (fieldNn w))
  | 0x8#4 => decodeFamily8 w
  | 0x9#4 => decodeTail0 w (.skipNeReg (fieldX w) (fieldY w))
  | 0xA#4 => some (.ldi (fieldNnn w))
  | 0xB#4 => some (.jmpOff (fieldNnn w) (fieldX w))
  | 0xC#4 => some (.random (fieldX w) (fieldNn w))
  | 0xD#4 => some (.draw (fieldX w) (fieldY w) (fieldN4 w))
  | 0xE#4 => decodeFamilyE w
  | _ => decodeFamilyF w

/-- The word of two consecutive bytes, the byte at the lower address first: big-endian (R66, R90). -/
def wordOfBytes (hi lo : Byte) : Word := hi ++ lo

/-- The byte of a word that lies at the lower address (R66). -/
def highByte (w : Word) : Byte := w.extractLsb' 8 8

/-- The byte of a word that lies at the higher address (R66). -/
def lowByte (w : Word) : Byte := w.extractLsb' 0 8

/-- What decoding a run of bytes gives: an instruction and the bytes after it, or the name of the
reason there is none. -/
inductive Decoded where
  /-- the first two bytes are this instruction -/
  | instr (i : Instr) (rest : List Byte)
  /-- the first two bytes form a word that is no instruction (R96) -/
  | invalidInstruction (w : Word)
  /-- there are fewer than the two bytes every instruction has (R90) -/
  | truncated
deriving DecidableEq, Repr

/-- The decoder on any bytes. -/
def decodeBytes : List Byte → Decoded
  | hi :: lo :: rest =>
    match decodeWord (wordOfBytes hi lo) with
    | some i => .instr i rest
    | none => .invalidInstruction (wordOfBytes hi lo)
  | [_] => .truncated
  | [] => .truncated

/-- The instruction of a row of spec/opcode_table.json, given as a number whose bit 0 is the least
significant bit of the 16-bit word: laid out big-endian as the machine stores it, then decoded. -/
def decodeTableWord (nbits w : Nat) : Option Instr :=
  let word : Word := BitVec.ofNat 16 (w % 2 ^ nbits)
  match decodeBytes [highByte word, lowByte word] with
  | .instr i _ => some i
  | .invalidInstruction _ => none
  | .truncated => none

/-- A word of format XY (R92). -/
def encodeXY (op x y n4 : Nibble) : Word := op ++ x ++ y ++ n4

/-- A word of format XI or X (R92). -/
def encodeXI (op x : Nibble) (nn : Byte) : Word := op ++ x ++ nn

/-- A word of format A or Z (R92). -/
def encodeA (op : Nibble) (nnn : Addr) : Word := op ++ nnn

/-- The word of an instruction, by the rows of R95. -/
def encode : Instr → Word
  | .cls => encodeA 0x0 0x0E0
  | .ret => encodeA 0x0 0x0EE
  | .jmp nnn => encodeA 0x1 nnn
  | .call nnn => encodeA 0x2 nnn
  | .skipEqImm x nn => encodeXI 0x3 x nn
  | .skipNeImm x nn => encodeXI 0x4 x nn
  | .skipEqReg x y => encodeXY 0x5 x y 0x0
  | .movImm x nn => encodeXI 0x6 x nn
  | .addImm x nn => encodeXI 0x7 x nn
  | .mov x y => encodeXY 0x8 x y 0x0
  | .or x y => encodeXY 0x8 x y 0x1
  | .and x y => encodeXY 0x8 x y 0x2
  | .xor x y => encodeXY 0x8 x y 0x3
  | .add x y => encodeXY 0x8 x y 0x4
  | .sub x y => encodeXY 0x8 x y 0x5
  | .shr x y => encodeXY 0x8 x y 0x6
  | .rsub x y => encodeXY 0x8 x y 0x7
  | .shl x y => encodeXY 0x8 x y 0xE
  | .skipNeReg x y => encodeXY 0x9 x y 0x0
  | .ldi nnn => encodeA 0xA nnn
  | .jmpOff nnn _ => encodeA 0xB nnn
  | .random x nn => encodeXI 0xC x nn
  | .draw x y n => encodeXY 0xD x y n
  | .skipKey x => encodeXI 0xE x 0x9E
  | .skipNkey x => encodeXI 0xE x 0xA1
  | .getDelay x => encodeXI 0xF x 0x07
  | .waitKey x => encodeXI 0xF x 0x0A
  | .setDelay x => encodeXI 0xF x 0x15
  | .setSound x => encodeXI 0xF x 0x18
  | .addIndex x => encodeXI 0xF x 0x1E
  | .font x => encodeXI 0xF x 0x29
  | .bcd x => encodeXI 0xF x 0x33
  | .store x => encodeXI 0xF x 0x55
  | .load x => encodeXI 0xF x 0x65

/-- A row of the opcode map (R95): a word `w` is the instruction iff `w and mask = pattern`. -/
structure OpcodeRow where
  mnemonic : String
  mask : Word
  pattern : Word
deriving DecidableEq, Repr

/-- The rows of R95 for the families 0 to 7. -/
def opcodeRowsLow : List OpcodeRow :=
  [⟨"CLS", 0xFFFF, 0x00E0⟩, ⟨"RET", 0xFFFF, 0x00EE⟩, ⟨"JMP", 0xF000, 0x1000⟩,
   ⟨"CALL", 0xF000, 0x2000⟩, ⟨"SKIP_EQ_IMM", 0xF000, 0x3000⟩, ⟨"SKIP_NE_IMM", 0xF000, 0x4000⟩,
   ⟨"SKIP_EQ_REG", 0xF00F, 0x5000⟩, ⟨"MOV_IMM", 0xF000, 0x6000⟩, ⟨"ADD_IMM", 0xF000, 0x7000⟩]

/-- The rows of R95 for the ALU family. -/
def opcodeRowsAlu : List OpcodeRow :=
  [⟨"MOV", 0xF00F, 0x8000⟩, ⟨"OR", 0xF00F, 0x8001⟩, ⟨"AND", 0xF00F, 0x8002⟩,
   ⟨"XOR", 0xF00F, 0x8003⟩, ⟨"ADD", 0xF00F, 0x8004⟩, ⟨"SUB", 0xF00F, 0x8005⟩,
   ⟨"SHR", 0xF00F, 0x8006⟩, ⟨"RSUB", 0xF00F, 0x8007⟩, ⟨"SHL", 0xF00F, 0x800E⟩]

/-- The rows of R95 for the families 9 to F. -/
def opcodeRowsHigh : List OpcodeRow :=
  [⟨"SKIP_NE_REG", 0xF00F, 0x9000⟩, ⟨"LDI", 0xF000, 0xA000⟩, ⟨"JMP_OFF", 0xF000, 0xB000⟩,
   ⟨"RANDOM", 0xF000, 0xC000⟩, ⟨"DRAW", 0xF000, 0xD000⟩, ⟨"SKIP_KEY", 0xF0FF, 0xE09E⟩,
   ⟨"SKIP_NKEY", 0xF0FF, 0xE0A1⟩, ⟨"GET_DELAY", 0xF0FF, 0xF007⟩, ⟨"WAIT_KEY", 0xF0FF, 0xF00A⟩,
   ⟨"SET_DELAY", 0xF0FF, 0xF015⟩, ⟨"SET_SOUND", 0xF0FF, 0xF018⟩, ⟨"ADD_INDEX", 0xF0FF, 0xF01E⟩,
   ⟨"FONT", 0xF0FF, 0xF029⟩, ⟨"BCD", 0xF0FF, 0xF033⟩, ⟨"STORE", 0xF0FF, 0xF055⟩,
   ⟨"LOAD", 0xF0FF, 0xF065⟩]

/-- The opcode map of R95, all 34 rows in its order. -/
def opcodeMap : List OpcodeRow := opcodeRowsLow ++ opcodeRowsAlu ++ opcodeRowsHigh

/-- The operation tag of R95, as spec/opcode_table.json spells it. -/
def Instr.mnemonic : Instr → String
  | .cls => "CLS"
  | .ret => "RET"
  | .jmp _ => "JMP"
  | .call _ => "CALL"
  | .skipEqImm _ _ => "SKIP_EQ_IMM"
  | .skipNeImm _ _ => "SKIP_NE_IMM"
  | .skipEqReg _ _ => "SKIP_EQ_REG"
  | .movImm _ _ => "MOV_IMM"
  | .addImm _ _ => "ADD_IMM"
  | .mov _ _ => "MOV"
  | .or _ _ => "OR"
  | .and _ _ => "AND"
  | .xor _ _ => "XOR"
  | .add _ _ => "ADD"
  | .sub _ _ => "SUB"
  | .shr _ _ => "SHR"
  | .rsub _ _ => "RSUB"
  | .shl _ _ => "SHL"
  | .skipNeReg _ _ => "SKIP_NE_REG"
  | .ldi _ => "LDI"
  | .jmpOff _ _ => "JMP_OFF"
  | .random _ _ => "RANDOM"
  | .draw _ _ _ => "DRAW"
  | .skipKey _ => "SKIP_KEY"
  | .skipNkey _ => "SKIP_NKEY"
  | .getDelay _ => "GET_DELAY"
  | .waitKey _ => "WAIT_KEY"
  | .setDelay _ => "SET_DELAY"
  | .setSound _ => "SET_SOUND"
  | .addIndex _ => "ADD_INDEX"
  | .font _ => "FONT"
  | .bcd _ => "BCD"
  | .store _ => "STORE"
  | .load _ => "LOAD"

/-- The list of illegal encodings of R96, items (a) to (f). -/
def IllegalWord (w : Word) : Prop :=
  (fieldOp w = 0x0 ∧ fieldNnn w ∉ [0x0E0#12, 0x0EE#12]) ∨
  (fieldOp w = 0x5 ∧ fieldN4 w ≠ 0x0) ∨
  (fieldOp w = 0x8 ∧ fieldN4 w ∈ [0x8#4, 0x9#4, 0xA#4, 0xB#4, 0xC#4, 0xD#4, 0xF#4]) ∨
  (fieldOp w = 0x9 ∧ fieldN4 w ≠ 0x0) ∨
  (fieldOp w = 0xE ∧ fieldNn w ∉ [0x9E#8, 0xA1#8]) ∨
  (fieldOp w = 0xF ∧
    fieldNn w ∉ [0x07#8, 0x0A#8, 0x15#8, 0x18#8, 0x1E#8, 0x29#8, 0x33#8, 0x55#8, 0x65#8])

end Sys2Proof
end

