-- ==== Sys2Proof/Machine/Build.lean ====
section
/-! DEFINITION. The build of the core that State.reset is constructed with: the values its configuration
takes where the spec offers one, and the cells a font table occupies in memory. -/
namespace Sys2Proof

/-- The table of 20_memory.md R76, glyphs 0 to 7 (log 10). -/
def fontDataLow : List Byte :=
  [0xF0, 0x90, 0x90, 0x90, 0xF0] ++ [0x20, 0x60, 0x20, 0x20, 0x70] ++
  [0xF0, 0x10, 0xF0, 0x80, 0xF0] ++ [0xF0, 0x10, 0xF0, 0x10, 0xF0] ++
  [0x90, 0x90, 0xF0, 0x10, 0x10] ++ [0xF0, 0x80, 0xF0, 0x10, 0xF0] ++
  [0xF0, 0x80, 0xF0, 0x90, 0xF0] ++ [0xF0, 0x10, 0x20, 0x40, 0x40]

/-- The table of 20_memory.md R76, glyphs 8 to F (log 10). -/
def fontDataHigh : List Byte :=
  [0xF0, 0x90, 0xF0, 0x90, 0xF0] ++ [0xF0, 0x90, 0xF0, 0x10, 0xF0] ++
  [0xF0, 0x90, 0xF0, 0x90, 0x90] ++ [0xE0, 0x90, 0xE0, 0x90, 0xE0] ++
  [0xF0, 0x80, 0x80, 0x80, 0xF0] ++ [0xE0, 0x90, 0x90, 0x90, 0xE0] ++
  [0xF0, 0x80, 0xF0, 0x80, 0xF0] ++ [0xF0, 0x80, 0xF0, 0x80, 0x80]

/-- The value of `FONT_DATA` that the spec takes: sixteen glyphs of five bytes, top row first
(20_memory.md R76). PRESUMED (general knowledge, 93_implementation_defined.md G4): log 10. -/
def customaryFont : Vector Byte Config.fontBytes := ⟨(fontDataLow ++ fontDataHigh).toArray, rfl⟩

/-- The setting that 95_test_vectors.md takes unless it says otherwise: the VIP preset of R4 with
`p_mov_resets_vf` = 0, `IDX_POLICY` = refuse and the font of R76. PRESUMED (the preset is from general
knowledge, 93_implementation_defined.md G5): log 1, 10. No statement rests on it; every one quantifies
over `cfg`. -/
def Cfg.vipPreset : Cfg where
  qVfReset := true
  qIndexInc := true
  qVblankWait := true
  qClip := true
  qShiftIgnoresY := false
  qJumpVx := false
  pMovResetsVf := false
  idxPolicy := .refuse
  fontData := customaryFont

/-- The cells of a block of bytes from `a` on in a memory that is 0x00 elsewhere: the bytes that are not
0x00, by rising address (20_memory.md R64, R76; log 8). -/
def nonzeroCells (a : Nat) : List Byte → List Host.Cell
  | [] => []
  | b :: bs => if b = 0x00 then nonzeroCells (a + 1) bs else (a, b) :: nonzeroCells (a + 1) bs

end Sys2Proof
end

