-- ==== Sys2Proof/Machine/State.lean ====
section
/-! DEFINITION. The machine's state: one field per row of the table of 10_state.md R20, and one field
of the model's own that indexes the free draws of the random source. -/
namespace Sys2Proof.Machine

/-- The three synchronous faults of the hardware (60_exceptions.md R250). They are entered in the state
(the latch `fault`), not in the outcome of a step: 40_step_cycle.md R125 gives the state they leave. -/
inductive FaultKind where
  /-- code 1, raised by fetch, DRAW, BCD, STORE, LOAD (R251) -/
  | invalidAddress
  /-- code 2, raised by decode (R252) -/
  | invalidInstruction
  /-- code 3, raised by CALL (R253) -/
  | stackOverflow
deriving DecidableEq, Repr

/-- The fault record (10_state.md R33, 60_exceptions.md R254). -/
structure FaultRecord where
  /-- which of the three faults -/
  kind : FaultKind
  /-- the program counter before the faulting fetch -/
  pcBefore : Word
  /-- the word fetched, absent when the fetch itself faulted -/
  opcode : Option Word
deriving DecidableEq, Repr

/-- A press or release edge of a key (10_state.md R27). -/
inductive KeyEdge where
  | press (k : Nibble)
  | release (k : Nibble)
deriving DecidableEq, Repr

/-- The active memory bank (10_state.md R29): the bytes that are not 0x00, by strictly rising address
(log 8). `Memory.get` reads an address, listed or not; `Memory.wf` is the canonical form. -/
structure Memory where
  cells : List Host.Cell
deriving DecidableEq, Repr

/-- The frame buffer `fb[y][x]`: 32 rows, top to bottom, of 64 pixels, left to right (10_state.md R30). -/
abbrev Frame := Vector (Vector Bool 64) 32

/-- The state of the core (10_state.md R20). -/
structure State where
  /-- `V[0..15]`; `V[15]` is `VF` (R21, R22) -/
  v : Vector Byte 16
  /-- `pc` (R23) -/
  pc : Word
  /-- `I` (R24) -/
  i : Word
  /-- `stack[0..15]` (R25) -/
  stack : Vector Word 16
  /-- `sp`: the number of return addresses held, 0 to 16 (R25) -/
  sp : Fin 17
  /-- `dt`, the delay timer (R26) -/
  dt : Byte
  /-- `st`, the sound timer (R26) -/
  st : Byte
  /-- `keys[0..15]`: which keys are down (R27) -/
  keys : Vector Bool 16
  /-- `last_edge` (R27) -/
  lastEdge : Option KeyEdge
  /-- `key_wait`: waiting for a release (R28) -/
  keyWait : Bool
  /-- `mem`, bank 0 (R29) -/
  mem : Memory
  /-- `bank_sel`: the constant 0, the only index of a one-bank controller (R29; log 25) -/
  bankSel : Fin Config.numBanks
  /-- `fb` (R30) -/
  fb : Frame
  /-- `data_ready`: a latched sprite awaits its render (R31) -/
  dataReady : Bool
  /-- `vblank_ready`: a vblank has arrived since the last render (R31) -/
  vblankReady : Bool
  /-- `sp_x`, the latched column (R31) -/
  spX : Byte
  /-- `sp_y`, the latched row (R31) -/
  spY : Byte
  /-- `sp_n`, the latched row count (R31) -/
  spN : Nibble
  /-- `sp_buf[0..14]`, the latched sprite bytes (R31) -/
  spBuf : Vector Byte 15
  /-- `cfg`, constant (R32; log 1) -/
  cfg : Cfg
  /-- `fault`, the fault latch (R33) -/
  fault : Option FaultRecord
  /-- `cycles`, the count of retired steps (R34) -/
  cycles : Nat
  /-- The model's own: how many draws the random source has answered (R35; log 4, 5). -/
  randomDraws : Nat
deriving DecidableEq, Repr

/-- Why a step has no next state though the instruction is the machine's. These are not the hardware's
faults (those are `FaultKind`). -/
inductive Fault where
  /-- Raised by RET when `sp` = 0, the one case the source calls undefined (43_cpu.md R180,
  60_exceptions.md R266, 93_implementation_defined.md U1). Safe: the model stops (log 3). -/
  | retEmptyStack
deriving DecidableEq, Repr

/-- Why the model takes no step. -/
inductive Refusal where
  /-- Raised by an arm of `exec` whose instruction has no meaning yet. Safe. -/
  | notModelled (mnemonic : String)
  /-- Raised by SKIP_KEY, SKIP_NKEY and FONT when `V[x]` > 15 and `IDX_POLICY` is `refuse`
  (44_system_misc.md R212, 93_implementation_defined.md U2). Safe: the model stops (log 2). -/
  | indexAboveFifteen
deriving DecidableEq, Repr

/-- Memory after reset: all 0x00, then the font copied to 0x0050 (10_state.md R38, 20_memory.md R76,
46_host_operations.md R231). -/
def Memory.reset (font : Vector Byte Config.fontBytes) : Memory :=
  ⟨nonzeroCells Config.fontBase font.toList⟩

/-- The state after construction with a configuration (10_state.md R38, 70_reset_and_hazards.md R280): `pc`
at the entry point, memory the font and 0x00, all else zero, idle, empty (the spec's D7; log 11). -/
def State.resetWith (c : Cfg) : State where
  v := Vector.replicate 16 0
  pc := Config.entry
  i := 0
  stack := Vector.replicate 16 0
  sp := 0
  dt := 0
  st := 0
  keys := Vector.replicate 16 false
  lastEdge := none
  keyWait := false
  mem := Memory.reset c.fontData
  bankSel := 0
  fb := Vector.replicate 32 (Vector.replicate 64 false)
  dataReady := false
  vblankReady := false
  spX := 0
  spY := 0
  spN := 0
  spBuf := Vector.replicate 15 0
  cfg := c
  fault := none
  cycles := 0
  randomDraws := 0

/-- The machine right after reset, in the build of Machine/Build.lean (log 1). -/
def State.reset : State := State.resetWith Cfg.vipPreset

end Sys2Proof.Machine
end

