-- ==== Sys2Proof/Machine/Ops.lean ====
section
/-! DEFINITION. The shared operations: memory (20_memory.md), registers, the ways a step ends
(40_step_cycle.md R120 to R127) and the fetch. -/
namespace Sys2Proof.Machine

/-! ### Memory -/

/-- What an address reads as when nothing is listed for it (10_state.md R38, 20_memory.md R61; log 8). -/
def Memory.unlisted : Byte := 0x00

/-- The byte a list of cells gives an address, if it lists it. -/
def cellsFind : List Host.Cell → Nat → Option Byte
  | [], _ => none
  | (k, b) :: rest, a => if a = k then some b else cellsFind rest a

/-- The list with the entry of one address put in, replaced, or (for `none`) taken out, the addresses
staying in rising order. -/
def cellsPut : List Host.Cell → Nat → Option Byte → List Host.Cell
  | [], _, none => []
  | [], a, some b => [(a, b)]
  | (k, c) :: rest, a, v =>
    if k < a then (k, c) :: cellsPut rest a v
    else
      let tail := if a = k then rest else (k, c) :: rest
      match v with
      | none => tail
      | some b => (a, b) :: tail

/-- Addresses strictly rising from `lo` on, all inside the bank, and no byte equal to what an unlisted
address reads as. -/
def cellsWf : Nat → List Host.Cell → Bool
  | _, [] => true
  | lo, (k, c) :: rest =>
    decide (lo ≤ k) && decide (k < Config.memSize) && decide (c ≠ Memory.unlisted) && cellsWf (k + 1) rest

/-- The canonical form of a memory, so that equal memories are equal data. -/
def Memory.wf (m : Memory) : Bool := cellsWf 0 m.cells

/-- `mem[a]` (R6). -/
def Memory.get (m : Memory) (a : Nat) : Byte := (cellsFind m.cells a).getD Memory.unlisted

/-- `mem[a] <- b` (R6), kept canonical. -/
def Memory.set (m : Memory) (a : Nat) (b : Byte) : Memory :=
  ⟨cellsPut m.cells a (if b = Memory.unlisted then none else some b)⟩

/-- `MemRead(addr, 1)` (R62): `none` is `InvalidAddress`. -/
def memRead (m : Memory) (a : Nat) : Option Byte :=
  if Config.memSize ≤ a then none else some (m.get a)

/-- `MemWrite(addr, 1, v)` (R63): `none` is `InvalidAddress`. -/
def memWrite (m : Memory) (a : Nat) (b : Byte) : Option Memory :=
  if Config.memSize ≤ a then none else some (m.set a b)

/-- `MemRead(addr, 2)` (R66): two byte reads, the lower address first, big-endian. The second address
is formed on naturals, without wrap (R69). -/
def memReadWord (m : Memory) (a : Nat) : Option Word :=
  match memRead m a with
  | none => none
  | some hi =>
    match memRead m (a + 1) with
    | none => none
    | some lo => some (wordOfBytes hi lo)

/-- `CheckRange(addr, n)` (R70): whether all of `addr .. addr+n-1` are inside the bank; no address is
checked when `n` = 0. -/
def rangeOk (a n : Nat) : Bool := decide (n = 0 ∨ a + n ≤ Config.memSize)

/-- Bytes stored at ascending addresses from `a`, each write taking effect before the next (R66, R71).
Used on a range that has been checked. -/
def Memory.writeBytes (m : Memory) (a : Nat) : List Byte → Memory
  | [] => m
  | b :: bs => (m.set a b).writeBytes (a + 1) bs

/-- `write_block(addr, bytes)` of the host operations (R64): nothing is written when the block passes
the top of the bank; `none` is the out-of-range error. -/
def writeBlock (m : Memory) (a : Nat) (bs : List Byte) : Option Memory :=
  if a + bs.length ≤ Config.memSize then some (m.writeBytes a bs) else none

/-! ### Registers -/

/-- `V[x]` (10_state.md R21). -/
def State.reg (s : State) (x : Nibble) : Byte := s.v[x.toNat]'x.isLt

/-- `V[x] <- b` (10_state.md R21). -/
def State.setReg (s : State) (x : Nibble) (b : Byte) : State := { s with v := s.v.set x.toNat b x.isLt }

/-- The number of `VF` (10_state.md R22). -/
abbrev regVF : Nibble := 0xF

/-- `pc <- target` (00_scope.md R6). -/
def State.setPc (s : State) (target : Word) : State := { s with pc := target }

/-- `I <- v` (10_state.md R24). -/
def State.setI (s : State) (a : Word) : State := { s with i := a }

/-- `pc <- (pc + 2) mod 2^16`: the fetch's advance, and what a skip adds to it (R23, R121, R183). -/
def State.advance (s : State) : State := { s with pc := s.pc + 2 }

/-- A taken or untaken skip: two bytes further iff `c` (R183). -/
def State.skipIf (s : State) (c : Bool) : State := if c then s.advance else s

/-! ### How a step ends

Each operation takes the state `s0` before the step where it needs it. -/

/-- Retire (R7, R127): the step counts one cycle. -/
def retire (s : State) : Host.Outcome State Fault Refusal := .next { s with cycles := s.cycles + 1 }

/-- Hold (R124): the program counter is put back to the instruction's own address. -/
def hold (s0 s : State) : Host.Outcome State Fault Refusal := .next { s with pc := s0.pc }

/-- The fault latch set over the state before the step (R125): nothing else changes. -/
def State.latchFault (s0 : State) (k : FaultKind) (opcode : Option Word) : State :=
  { s0 with fault := some { kind := k, pcBefore := s0.pc, opcode := opcode } }

/-- TAKING A FAULT, `raise K` (R125, 60_exceptions.md R255, R257): the state before the step with the
latch set; there is no handler and no return but `reset` and `load_rom` (R258; log 6). -/
def raiseFault (s0 : State) (k : FaultKind) (opcode : Option Word) : Host.Outcome State Fault Refusal :=
  .next (s0.latchFault k opcode)

/-! ### The cycle -/

/-- The word of `fetch()` (R121), or `none` for its `InvalidAddress`: the ceiling check, then the two
bytes at `pc`. The advance of `pc` is the meaning's first act (log 7). -/
def fetchWord (s : State) : Option Word :=
  if Config.memSize ≤ s.pc.toNat then none else memReadWord s.mem s.pc.toNat

/-- `step()` over a dispatcher `execute` (R120): nothing while the latch is set (R126), else fetch
(R121), decode (R122) and dispatch (R123), each able to raise. -/
def cycle (execute : Instr → State → Host.Outcome State Fault Refusal) (s : State) :
    Host.Outcome State Fault Refusal :=
  match s.fault with
  | some _ => .next s
  | none =>
    match fetchWord s with
    | none => raiseFault s .invalidAddress none
    | some w =>
      match decodeWord w with
      | none => raiseFault s .invalidInstruction (some w)
      | some i => execute i s

/-- A state like `s` whose next fetch finds the word `w`: `w` stored big-endian at `pc`, the latch
clear, and `pc` at the entry point where it stood at an address no fetch can succeed at (log 22). -/
def State.placeWord (s : State) (w : Word) : State :=
  let pc := if s.pc.toNat + 2 ≤ Config.memSize then s.pc else Config.entry
  { s with
    pc := pc
    fault := none
    mem := s.mem.writeBytes pc.toNat [highByte w, lowByte w] }

end Sys2Proof.Machine
end

