-- ==== Sys2Proof/Machine/Flags.lean ====
section
/-! DEFINITION. The flag computations of 41_alu.md and the one way a flag reaches `VF`
(10_state.md R22). A flag is `some f`, or `none` where the table says "unchanged". -/
namespace Sys2Proof.Machine

/-- A flag write stores the whole byte 0x00 or 0x01 (10_state.md R22). -/
def flagByte (f : Bool) : Byte := if f then 0x01 else 0x00

/-- ADD: 1 iff the result wrapped, `result < x_before` (R145). -/
def addFlag (a b : Byte) : Bool := decide (a + b < a)

/-- SUB: 1 iff `x_before ≥ y`, no borrow (R146). -/
def subFlag (a b : Byte) : Bool := decide (b ≤ a)

/-- RSUB: 1 iff `x_before ≤ y`, no borrow (R148). -/
def rsubFlag (a b : Byte) : Bool := decide (a ≤ b)

/-- SHR: bit 0 of the pre-shift value (R147). -/
def shrFlag (a : Byte) : Bool := a.getLsbD 0

/-- SHL: bit 7 of the pre-shift value (R149). -/
def shlFlag (a : Byte) : Bool := a.getLsbD 7

/-- OR, AND, XOR: reset to 0 under `q_vf_reset`, else unchanged (R142 to R144). -/
def bitwiseFlag (c : Cfg) : Option Bool := if c.qVfReset then some false else none

/-- MOV: reset to 0 under `p_mov_resets_vf`, else unchanged (R141; log 14). -/
def movFlag (c : Cfg) : Option Bool := if c.pMovResetsVf then some false else none

/-- `V[15] <- f`, or nothing where the flag is unchanged. -/
def State.writeFlag (s : State) : Option Bool → State
  | none => s
  | some f => s.setReg regVF (flagByte f)

/-- The write-back of every ALU operation (R140): the result to `V[x]`, then the flag, so that `VF` as
a destination ends as the flag (the spec's D11; log 13). -/
def State.aluWriteBack (s : State) (x : Nibble) (r : Byte) (f : Option Bool) : State :=
  (s.setReg x r).writeFlag f

end Sys2Proof.Machine
end

