-- ==== Sys2Proof/Machine/Operands.lean ====
section
/-! DEFINITION. The operand forms that are more than a register or an immediate. -/
namespace Sys2Proof.Machine

/-- The value a shift shifts: `V[y]`, or `V[x]` under `q_shift_ignores_y` (41_alu.md R147, R149). -/
def shiftSource (s : State) (x y : Nibble) : Byte :=
  if s.cfg.qShiftIgnoresY then s.reg x else s.reg y

/-- The offset of the offset jump: `V0`, or `V[x]` under `q_jump_vx` (43_cpu.md R190). -/
def jumpOffset (s : State) (x : Nibble) : Byte :=
  if s.cfg.qJumpVx then s.reg x else s.reg 0

/-- `idx(v)` (44_system_misc.md R212): a key or glyph number, `none` where the policy gives a number
above 15 no meaning. -/
def keyOrGlyph (policy : IdxPolicy) (v : Byte) : Option Nibble :=
  if v.toNat ≤ 15 then some (v.extractLsb' 0 4)
  else
    match policy with
    | .refuse => none
    | .mask4 => some (v.extractLsb' 0 4)

/-- The registers `V[0] .. V[x]`, in order (44_system_misc.md R209). -/
def regsUpTo (s : State) (x : Nibble) : List Byte := s.v.toList.take (x.toNat + 1)

/-- The registers with `V[0] .. V[x]` loaded from the bytes at `a`, `a+1`, ...; those above `x` keep
their values (44_system_misc.md R210). -/
def loadRegs (v : Vector Byte 16) (m : Memory) (a : Nat) (x : Nibble) : Vector Byte 16 :=
  v.mapIdx fun r old => if r ≤ x.toNat then m.get (a + r) else old

/-- `I <- (I + x + 1) mod 2^16` under `q_index_inc` (44_system_misc.md R209, R210). -/
def autoIncrement (s : State) (x : Nibble) : State :=
  if s.cfg.qIndexInc then s.setI (s.i + x.setWidth 16 + 1) else s

/-- The three decimal digits of a byte: hundreds, tens, units (44_system_misc.md R208). -/
def bcdDigits (b : Byte) : List Byte :=
  [BitVec.ofNat 8 (b.toNat / 100), BitVec.ofNat 8 (b.toNat / 10 % 10), BitVec.ofNat 8 (b.toNat % 10)]

/-- Whether key `k` is down (10_state.md R27). -/
def State.keyDown (s : State) (k : Nibble) : Bool := s.keys[k.toNat]'k.isLt

end Sys2Proof.Machine
end

