-- ==== Sys2Proof/Machine/Alu.lean ====
section
/-! DEFINITION. The ALU family (41_alu.md R140 to R149). Every meaning starts from the state before the
step: `s.advance` is the state the fetch leaves, and both operands are read before any write. -/
namespace Sys2Proof.Machine

/-- The common contract of the family (R140): always retires. -/
def aluStep (s : State) (x : Nibble) (r : Byte) (f : Option Bool) : Host.Outcome State Fault Refusal :=
  retire (s.advance.aluWriteBack x r f)

/-- MOV, `8XY0` (R141). -/
def execMov (x y : Nibble) (s : State) : Host.Outcome State Fault Refusal :=
  aluStep s x (s.reg y) (movFlag s.cfg)

/-- OR, `8XY1` (R142). -/
def execOr (x y : Nibble) (s : State) : Host.Outcome State Fault Refusal :=
  aluStep s x (s.reg x ||| s.reg y) (bitwiseFlag s.cfg)

/-- AND, `8XY2` (R143). -/
def execAnd (x y : Nibble) (s : State) : Host.Outcome State Fault Refusal :=
  aluStep s x (s.reg x &&& s.reg y) (bitwiseFlag s.cfg)

/-- XOR, `8XY3` (R144). -/
def execXor (x y : Nibble) (s : State) : Host.Outcome State Fault Refusal :=
  aluStep s x (s.reg x ^^^ s.reg y) (bitwiseFlag s.cfg)

/-- ADD, `8XY4` (R145): modulo 256, the flag always written, no carry in. -/
def execAdd (x y : Nibble) (s : State) : Host.Outcome State Fault Refusal :=
  aluStep s x (s.reg x + s.reg y) (some (addFlag (s.reg x) (s.reg y)))

/-- SUB, `8XY5` (R146). -/
def execSub (x y : Nibble) (s : State) : Host.Outcome State Fault Refusal :=
  aluStep s x (s.reg x - s.reg y) (some (subFlag (s.reg x) (s.reg y)))

/-- SHR, `8XY6` (R147): logical. -/
def execShr (x y : Nibble) (s : State) : Host.Outcome State Fault Refusal :=
  aluStep s x (shiftSource s x y >>> 1) (some (shrFlag (shiftSource s x y)))

/-- RSUB, `8XY7` (R148). -/
def execRsub (x y : Nibble) (s : State) : Host.Outcome State Fault Refusal :=
  aluStep s x (s.reg y - s.reg x) (some (rsubFlag (s.reg x) (s.reg y)))

/-- SHL, `8XYE` (R149). -/
def execShl (x y : Nibble) (s : State) : Host.Outcome State Fault Refusal :=
  aluStep s x (shiftSource s x y <<< 1) (some (shlFlag (shiftSource s x y)))

end Sys2Proof.Machine
end

