-- ==== Sys2Proof/Machine/Cpu.lean ====
section
/-! DEFINITION. The CPU family (43_cpu.md R180 to R191): control transfer, skips, immediates, index
load, random. Every meaning starts from the state before the step; `s.advance` is what the fetch
leaves. -/
namespace Sys2Proof.Machine

/-- RET, `00EE` (R180). On an empty stack the spec gives no next state (R266, U1; log 3). -/
def execRet (s : State) : Host.Outcome State Fault Refusal :=
  if h : s.sp.val = 0 then .fault .retEmptyStack
  else
    retire { s with
      sp := ⟨s.sp.val - 1, by omega⟩
      pc := s.stack[s.sp.val - 1]'(by omega) }

/-- CALL, `2NNN` (R181): the depth check comes before the push. -/
def execCall (nnn : Addr) (s : State) : Host.Outcome State Fault Refusal :=
  if h : s.sp.val = Config.stackDepth then raiseFault s .stackOverflow (some (encode (.call nnn)))
  else
    have hlt : s.sp.val < 16 := by have := s.sp.isLt; have : ¬ s.sp.val = 16 := h; omega
    retire { s with
      stack := s.stack.set s.sp.val s.advance.pc hlt
      sp := ⟨s.sp.val + 1, by omega⟩
      pc := nnn.toWord }

/-- JMP, `1NNN` (R182). -/
def execJmp (nnn : Addr) (s : State) : Host.Outcome State Fault Refusal :=
  retire (s.setPc nnn.toWord)

/-- JMP_OFF, `BNNN` (R190): not masked to 12 bits (the spec's D14; log 15). -/
def execJmpOff (nnn : Addr) (x : Nibble) (s : State) : Host.Outcome State Fault Refusal :=
  retire (s.setPc (nnn.toWord + (jumpOffset s x).toWord))

/-- SKIP_EQ_IMM, `3XNN` (R183). -/
def execSkipEqImm (x : Nibble) (nn : Byte) (s : State) : Host.Outcome State Fault Refusal :=
  retire (s.advance.skipIf (decide (s.reg x = nn)))

/-- SKIP_NE_IMM, `4XNN` (R184). -/
def execSkipNeImm (x : Nibble) (nn : Byte) (s : State) : Host.Outcome State Fault Refusal :=
  retire (s.advance.skipIf (decide (s.reg x ≠ nn)))

/-- SKIP_EQ_REG, `5XY0` (R185). -/
def execSkipEqReg (x y : Nibble) (s : State) : Host.Outcome State Fault Refusal :=
  retire (s.advance.skipIf (decide (s.reg x = s.reg y)))

/-- SKIP_NE_REG, `9XY0` (R186). -/
def execSkipNeReg (x y : Nibble) (s : State) : Host.Outcome State Fault Refusal :=
  retire (s.advance.skipIf (decide (s.reg x ≠ s.reg y)))

/-- MOV_IMM, `6XNN` (R187). -/
def execMovImm (x : Nibble) (nn : Byte) (s : State) : Host.Outcome State Fault Refusal :=
  retire (s.advance.setReg x nn)

/-- ADD_IMM, `7XNN` (R188): no flag (the spec's D12; log 13). -/
def execAddImm (x : Nibble) (nn : Byte) (s : State) : Host.Outcome State Fault Refusal :=
  retire (s.advance.setReg x (s.reg x + nn))

/-- LDI, `ANNN` (R189). -/
def execLdi (nnn : Addr) (s : State) : Host.Outcome State Fault Refusal :=
  retire (s.advance.setI nnn.toWord)

/-- `draw8()` (00_scope.md R6, 10_state.md R35): the next free byte of the random source. -/
def drawByte (s : State) : Byte := Config.randomByte s.randomDraws

/-- RANDOM, `CXNN` (R191): one draw, under a mask. -/
def execRandom (x : Nibble) (nn : Byte) (s : State) : Host.Outcome State Fault Refusal :=
  retire { s.advance.setReg x (drawByte s &&& nn) with randomDraws := s.randomDraws + 1 }

end Sys2Proof.Machine
end

