-- ==== Sys2Proof/Machine/Display.lean ====
section
/-! DEFINITION. The display family (42_display.md R160 to R168): the blitter with its latch, gate and
render phases, and CLS. -/
namespace Sys2Proof.Machine

/-- A frame being drawn on and whether a lit pixel has been turned off so far. -/
abbrev Canvas := Frame × Bool

/-- `fb[y][x]`; the blitter reads only coordinates on the screen (20_memory.md R77). -/
def pixelAt (fb : Frame) (y x : Nat) : Bool :=
  if h : y < 32 ∧ x < 64 then (fb[y]'h.1)[x]'h.2 else false

/-- `fb[y][x] <- fb[y][x] xor 1`. -/
def togglePixel (fb : Frame) (y x : Nat) : Frame :=
  if h : y < 32 ∧ x < 64 then fb.set y ((fb[y]'h.1).set x (!(fb[y]'h.1)[x]'h.2) h.2) h.1 else fb

/-- One source bit applied to one pixel: a 0 does nothing, a 1 toggles the pixel and collides if the
pixel was on (R163, R164, R165). -/
def plot (c : Canvas) (y x : Nat) (bit : Bool) : Canvas :=
  if bit then (togglePixel c.1 y x, c.2 || pixelAt c.1 y x) else c

/-- Bit `b` of a sprite byte counted from the left: bit 7 is the leftmost (R163; log 18). -/
def spriteBit (byte : Byte) (b : Nat) : Bool := byte.getLsbD (7 - b)

/-- `sp_buf[r]` (10_state.md R31); `r` is below `sp_n`, hence below 15. -/
def State.spriteByte (s : State) (r : Nat) : Byte := (s.spBuf[r]?).getD 0

/-- The pixels of a row, left to right, aborting the row at the right edge (R163). -/
def clipRow (byte : Byte) (py x0 : Nat) : List Nat → Canvas → Canvas
  | [], c => c
  | b :: bs, c =>
    if Config.screenW ≤ x0 + b then c
    else clipRow byte py x0 bs (plot c py (x0 + b) (spriteBit byte b))

/-- The rows of a sprite, top to bottom, aborting the sprite at the bottom edge (R163). -/
def clipRows (s : State) (x0 y0 : Nat) : List Nat → Canvas → Canvas
  | [], c => c
  | r :: rs, c =>
    if Config.screenH ≤ y0 + r then c
    else clipRows s x0 y0 rs (clipRow (s.spriteByte r) (y0 + r) x0 (List.range 8) c)

/-- The pixels of a row in wraparound mode (R164). -/
def wrapRow (byte : Byte) (py x0 : Nat) : List Nat → Canvas → Canvas
  | [], c => c
  | b :: bs, c =>
    wrapRow byte py x0 bs (plot c py ((x0 + b) % Config.screenW) (spriteBit byte b))

/-- The rows of a sprite in wraparound mode (R164). -/
def wrapRows (s : State) (x0 y0 : Nat) : List Nat → Canvas → Canvas
  | [], c => c
  | r :: rs, c =>
    wrapRows s x0 y0 rs
      (wrapRow (s.spriteByte r) ((y0 + r) % Config.screenH) x0 (List.range 8) c)

/-- `render()` of the latched sprite: the new frame and the collision flag (R163, R164). -/
def render (s : State) : Canvas :=
  if s.cfg.qClip then
    clipRows s (s.spX.toNat % Config.screenW) (s.spY.toNat % Config.screenH)
      (List.range s.spN.toNat) (s.fb, false)
  else wrapRows s s.spX.toNat s.spY.toNat (List.range s.spN.toNat) (s.fb, false)

/-- Phase 3 (R160, R165, R166): the frame, then `VF`, then both latches back to idle. -/
def State.renderLatched (s : State) : State :=
  { s.setReg regVF (flagByte (render s).2) with
    fb := (render s).1
    dataReady := false
    vblankReady := false }

/-- Phase 1 (R161): offsets, row count and sprite bytes copied, and the adapter marked data ready. The
bytes at and above the row count stay as they were (log 24). -/
def State.latchSprite (s : State) (x y n : Nibble) : State :=
  { s with
    spX := s.reg x
    spY := s.reg y
    spN := n
    spBuf := s.spBuf.mapIdx fun r old => if r < n.toNat then s.mem.get (s.i.toNat + r) else old
    dataReady := true }

/-- Phases 2 and 3 on an adapter that holds a sprite (R162): hold while the gate is shut, else render
and retire. `s0` is the state before the step. -/
def gateAndRender (s0 s : State) : Host.Outcome State Fault Refusal :=
  if s.cfg.qVblankWait && !s.vblankReady then hold s0 s else retire s.renderLatched

/-- DRAW, `DXYN` (R160): latch unless a sprite is latched already, gate, render. -/
def execDraw (x y n : Nibble) (s : State) : Host.Outcome State Fault Refusal :=
  if s.dataReady then gateAndRender s s.advance
  else if rangeOk s.i.toNat n.toNat then gateAndRender s (s.advance.latchSprite x y n)
  else raiseFault s .invalidAddress (some (encode (.draw x y n)))

/-- A frame with every pixel off (R167). -/
def blankFrame : Frame := Vector.replicate 32 (Vector.replicate 64 false)

/-- CLS, `00E0` (R167; the spec's D3, log 12). -/
def execCls (s : State) : Host.Outcome State Fault Refusal :=
  retire { s.advance with fb := blankFrame }

end Sys2Proof.Machine
end

