-- ==== Sys2Proof/Machine/SystemMisc.lean ====
section
/-! DEFINITION. The System family (44_system_misc.md R200 to R212): keypad, timers, index register,
font, BCD, register block transfer. -/
namespace Sys2Proof.Machine

/-- SKIP_KEY, `EX9E` (R200). -/
def execSkipKey (x : Nibble) (s : State) : Host.Outcome State Fault Refusal :=
  match keyOrGlyph s.cfg.idxPolicy (s.reg x) with
  | none => .refused .indexAboveFifteen
  | some k => retire (s.advance.skipIf (s.keyDown k))

/-- SKIP_NKEY, `EXA1` (R201). -/
def execSkipNkey (x : Nibble) (s : State) : Host.Outcome State Fault Refusal :=
  match keyOrGlyph s.cfg.idxPolicy (s.reg x) with
  | none => .refused .indexAboveFifteen
  | some k => retire (s.advance.skipIf (!s.keyDown k))

/-- GET_DELAY, `FX07` (R202). -/
def execGetDelay (x : Nibble) (s : State) : Host.Outcome State Fault Refusal :=
  retire (s.advance.setReg x s.dt)

/-- WAIT_KEY, `FX0A` (R203, R211): the first presentation clears the edge and waits; later ones hold
until the latest edge is a release, whose key number is then stored. -/
def execWaitKey (x : Nibble) (s : State) : Host.Outcome State Fault Refusal :=
  if s.keyWait then
    match s.lastEdge with
    | some (.release k) => retire { s.advance.setReg x k.toByte with keyWait := false }
    | some (.press _) => hold s s.advance
    | none => hold s s.advance
  else hold s { s.advance with lastEdge := none, keyWait := true }

/-- SET_DELAY, `FX15` (R204). -/
def execSetDelay (x : Nibble) (s : State) : Host.Outcome State Fault Refusal :=
  retire { s.advance with dt := s.reg x }

/-- SET_SOUND, `FX18` (R205). -/
def execSetSound (x : Nibble) (s : State) : Host.Outcome State Fault Refusal :=
  retire { s.advance with st := s.reg x }

/-- ADD_INDEX, `FX1E` (R206): modulo 2^16, no flag (the spec's D12, D13; log 13, 15). -/
def execAddIndex (x : Nibble) (s : State) : Host.Outcome State Fault Refusal :=
  retire (s.advance.setI (s.i + (s.reg x).toWord))

/-- FONT, `FX29` (R207): the address is computed, no memory is read. -/
def execFont (x : Nibble) (s : State) : Host.Outcome State Fault Refusal :=
  match keyOrGlyph s.cfg.idxPolicy (s.reg x) with
  | none => .refused .indexAboveFifteen
  | some g =>
    retire (s.advance.setI (BitVec.ofNat 16 (Config.fontBase + Config.fontGlyphBytes * g.toNat)))

/-- BCD, `FX33` (R208): all three bytes or none; `I` is not changed. -/
def execBcd (x : Nibble) (s : State) : Host.Outcome State Fault Refusal :=
  if rangeOk s.i.toNat 3 then
    retire { s.advance with mem := s.mem.writeBytes s.i.toNat (bcdDigits (s.reg x)) }
  else raiseFault s .invalidAddress (some (encode (.bcd x)))

/-- STORE, `FX55` (R209): all `x + 1` bytes or none, then the optional increment of `I`. -/
def execStore (x : Nibble) (s : State) : Host.Outcome State Fault Refusal :=
  if rangeOk s.i.toNat (x.toNat + 1) then
    retire (autoIncrement
      { s.advance with mem := s.mem.writeBytes s.i.toNat (regsUpTo s x) } x)
  else raiseFault s .invalidAddress (some (encode (.store x)))

/-- LOAD, `FX65` (R210): all `x + 1` registers or none, then the optional increment of `I`. -/
def execLoad (x : Nibble) (s : State) : Host.Outcome State Fault Refusal :=
  if rangeOk s.i.toNat (x.toNat + 1) then
    retire (autoIncrement { s.advance with v := loadRegs s.v s.mem s.i.toNat x } x)
  else raiseFault s .invalidAddress (some (encode (.load x)))

end Sys2Proof.Machine
end

