-- ==== Sys2Proof/Machine/Dispatch.lean ====
section
/-! DEFINITION. The dispatcher (40_step_cycle.md R123): one meaning per instruction. -/
namespace Sys2Proof.Machine

/-- The whole effect of one instruction on the state before its step, the fetch's advance of `pc`
included (log 7). -/
def exec (i : Instr) (s : State) : Host.Outcome State Fault Refusal :=
  match i with
  | .cls => Sys2Proof.Machine.execCls s
  | .ret => Sys2Proof.Machine.execRet s
  | .jmp nnn => Sys2Proof.Machine.execJmp nnn s
  | .call nnn => Sys2Proof.Machine.execCall nnn s
  | .skipEqImm x nn => Sys2Proof.Machine.execSkipEqImm x nn s
  | .skipNeImm x nn => Sys2Proof.Machine.execSkipNeImm x nn s
  | .skipEqReg x y => Sys2Proof.Machine.execSkipEqReg x y s
  | .movImm x nn => Sys2Proof.Machine.execMovImm x nn s
  | .addImm x nn => Sys2Proof.Machine.execAddImm x nn s
  | .mov x y => Sys2Proof.Machine.execMov x y s
  | .or x y => Sys2Proof.Machine.execOr x y s
  | .and x y => Sys2Proof.Machine.execAnd x y s
  | .xor x y => Sys2Proof.Machine.execXor x y s
  | .add x y => Sys2Proof.Machine.execAdd x y s
  | .sub x y => Sys2Proof.Machine.execSub x y s
  | .shr x y => Sys2Proof.Machine.execShr x y s
  | .rsub x y => Sys2Proof.Machine.execRsub x y s
  | .shl x y => Sys2Proof.Machine.execShl x y s
  | .skipNeReg x y => Sys2Proof.Machine.execSkipNeReg x y s
  | .ldi nnn => Sys2Proof.Machine.execLdi nnn s
  | .jmpOff nnn x => Sys2Proof.Machine.execJmpOff nnn x s
  | .random x nn => Sys2Proof.Machine.execRandom x nn s
  | .draw x y n => Sys2Proof.Machine.execDraw x y n s
  | .skipKey x => Sys2Proof.Machine.execSkipKey x s
  | .skipNkey x => Sys2Proof.Machine.execSkipNkey x s
  | .getDelay x => Sys2Proof.Machine.execGetDelay x s
  | .waitKey x => Sys2Proof.Machine.execWaitKey x s
  | .setDelay x => Sys2Proof.Machine.execSetDelay x s
  | .setSound x => Sys2Proof.Machine.execSetSound x s
  | .addIndex x => Sys2Proof.Machine.execAddIndex x s
  | .font x => Sys2Proof.Machine.execFont x s
  | .bcd x => Sys2Proof.Machine.execBcd x s
  | .store x => Sys2Proof.Machine.execStore x s
  | .load x => Sys2Proof.Machine.execLoad x s

end Sys2Proof.Machine
end

