-- ==== Sys2Proof/Machine/Step.lean ====
section
/-! DEFINITION. The step of the core (40_step_cycle.md R120). -/
namespace Sys2Proof.Machine

/-- `step()`: one fetch-decode-execute cycle; its three outcomes of the source (retire, hold, fault)
are next states, and a case without meaning is a fault or a refusal of the model (R7). -/
def step (s : State) : Host.Outcome State Fault Refusal := cycle exec s

/-- `s` with an instruction of spec/opcode_table.json stored where `step` fetches next (log 22). -/
def State.withFetchWord (s : State) (nbits w : Nat) : State :=
  s.placeWord (BitVec.ofNat 16 (w % 2 ^ nbits))

end Sys2Proof.Machine
end

