-- ==== Sys2Proof/Machine/HostOps.lean ====
section
/-! DEFINITION. The host operations (46_host_operations.md R230 to R242): the transitions of the
environment, each atomic and accepted in every state. -/
namespace Sys2Proof.Machine

/-- `reset()` (R231, 10_state.md R38): every element at its reset value, `cfg` untouched, the random
source not constrained (R35). -/
def resetOp (s : State) : State := { State.resetWith s.cfg with randomDraws := s.randomDraws }

/-- `load_rom(bytes)` (R232): reset, then the program at the entry point, or no program at all when it
does not fit. -/
def loadRomOp (bytes : List Byte) (s : State) : State :=
  match writeBlock (resetOp s).mem Config.entry.toNat bytes with
  | none => resetOp s
  | some m => { resetOp s with mem := m }

/-- What `load_rom` reports to the host: `InvalidAddress` for a program that does not fit (R232; D23). -/
def loadRomReport (bytes : List Byte) (s : State) : Option FaultKind :=
  match writeBlock (resetOp s).mem Config.entry.toNat bytes with
  | none => some .invalidAddress
  | some _ => none

/-- `keypress(k)` (R234). -/
def keypressOp (k : Nibble) (s : State) : State :=
  { s with keys := s.keys.set k.toNat true k.isLt, lastEdge := some (.press k) }

/-- `keyrelease(k)` (R235). -/
def keyreleaseOp (k : Nibble) (s : State) : State :=
  { s with keys := s.keys.set k.toNat false k.isLt, lastEdge := some (.release k) }

/-- A count of a timer, floored at 0 (R236). -/
def countDown (t : Byte) : Byte := if 0 < t then t - 1 else t

/-- `decrement_timers()` (R236). -/
def decrementTimersOp (s : State) : State := { s with dt := countDown s.dt, st := countDown s.st }

/-- `vblank_trigger()` (R237). -/
def vblankTriggerOp (s : State) : State := { s with vblankReady := true }

/-- `get_output_buffer()` (R238): 2048 bytes of 0x00 or 0x01, element `y*64 + x` is `fb[y][x]`. -/
def outputBuffer (s : State) : List Byte :=
  s.fb.toList.flatMap fun row => row.toList.map flagByte

/-- `get_sound_timer()` (R239). -/
def soundTimer (s : State) : Byte := s.st

/-- The operations of the host but `step()` (R231, R232, R234 to R239). -/
inductive HostOp where
  | reset
  | loadRom (bytes : List Byte)
  | keypress (k : Nibble)
  | keyrelease (k : Nibble)
  | decrementTimers
  | vblankTrigger
  | getOutputBuffer
  | getSoundTimer
deriving DecidableEq, Repr

/-- What the host is answered. -/
inductive HostReply where
  /-- nothing to report -/
  | done
  /-- `load_rom` failed with this kind (R232) -/
  | loadFailed (k : FaultKind)
  /-- the pixels (R238) -/
  | pixels (bytes : List Byte)
  /-- the sound timer (R239) -/
  | sound (b : Byte)
deriving DecidableEq, Repr

/-- The state after a host operation; a read-out changes nothing (R238, R239). -/
def hostStep (op : HostOp) (s : State) : State :=
  match op with
  | .reset => resetOp s
  | .loadRom bytes => loadRomOp bytes s
  | .keypress k => keypressOp k s
  | .keyrelease k => keyreleaseOp k s
  | .decrementTimers => decrementTimersOp s
  | .vblankTrigger => vblankTriggerOp s
  | .getOutputBuffer => s
  | .getSoundTimer => s

/-- The reply to a host operation made in state `s`. -/
def hostReply (op : HostOp) (s : State) : HostReply :=
  match op with
  | .reset => .done
  | .loadRom bytes =>
    match loadRomReport bytes s with
    | none => .done
    | some k => .loadFailed k
  | .keypress _ => .done
  | .keyrelease _ => .done
  | .decrementTimers => .done
  | .vblankTrigger => .done
  | .getOutputBuffer => .pixels (outputBuffer s)
  | .getSoundTimer => .sound (soundTimer s)

/-- The numeric code of a fault kind (60_exceptions.md R250; D6). -/
def FaultKind.code : FaultKind → Nat
  | .invalidAddress => 1
  | .invalidInstruction => 2
  | .stackOverflow => 3

/-- What a `step()` that left the state `s` reports (R233): completed, or the fault record. A step made on
an already faulted core reports the standing record again. DESIGN CHOICE: the spec says only that such a
step returns and does nothing (40_step_cycle.md R120, R126), not what it reports (log 28). -/
def stepReport (s : State) : Option FaultRecord := s.fault

/-- The code on the latch, 0 for none (R250). -/
def faultCode (s : State) : Nat :=
  match s.fault with
  | none => 0
  | some r => r.kind.code

/-- The convenience output `held` of the port picture: `key_wait or data_ready` (R241; log 27). -/
def heldOutput (s : State) : Bool := s.keyWait || s.dataReady

/-- The output `fb_data` of the port picture at the 11-bit address `fb_addr` (R241, R238; log 27). -/
def pixelOutput (s : State) (a : BitVec 11) : Bool := pixelAt s.fb (a.toNat / 64) (a.toNat % 64)

end Sys2Proof.Machine
end

