-- ==== Sys2Proof/Safety.lean ====
section
/-! DEFINITION. The terms claims about the machine use: events, the invariant of 10_state.md R37, how a
step ended, and what "unchanged" means for each group of the state. -/
namespace Sys2Proof.Machine

/-- What can happen to the core (00_scope.md R8, 20_memory.md R74): a step, or a host operation between
steps. -/
inductive Event where
  | step
  | host (op : HostOp)
deriving DecidableEq, Repr

/-- The outcome of an event; a host operation always has a next state (46_host_operations.md R230). -/
def Event.outcome (e : Event) (s : State) : Host.Outcome State Fault Refusal :=
  match e with
  | .step => Sys2Proof.Machine.step s
  | .host op => .next (hostStep op s)

/-- The states of all runs from reset, under every interleaving of host operations with steps and any
configuration (00_scope.md R8, 10_state.md R37). -/
inductive Reachable : State → Prop where
  | reset (c : Cfg) : Reachable (State.resetWith c)
  | event {s t : State} (e : Event) : Reachable s → e.outcome s = .next t → Reachable t

/-- The instruction the next step presents: the word at `pc`, decoded (40_step_cycle.md R121, R122). -/
def presented (s : State) : Option Instr := (fetchWord s).bind decodeWord

/-- How a step from `s` to `t` ended when it was a fault: the latch was clear and is set (R125). -/
def FaultedStep (s t : State) : Prop := s.fault = none ∧ t.fault ≠ none

/-- Retire: the step ran and counted a cycle (00_scope.md R7, 40_step_cycle.md R127). -/
def RetiredStep (s t : State) : Prop := s.fault = none ∧ t.fault = none ∧ t.cycles = s.cycles + 1

/-- Hold: the step ran, did not fault and did not count (00_scope.md R7, 40_step_cycle.md R124, R127). -/
def HeldStep (s t : State) : Prop := s.fault = none ∧ t.fault = none ∧ t.cycles = s.cycles

/-- 10_state.md R37(b): while waiting for a key, `pc` holds a WAIT_KEY. -/
def KeyWaitOk (s : State) : Prop := s.keyWait = true → ∃ x, presented s = some (.waitKey x)

/-- 10_state.md R37(c): while a sprite is latched, `pc` holds the DRAW that latched it and the latch
equals what that DRAW would latch. -/
def LatchOk (s : State) : Prop :=
  s.dataReady = true →
    ∃ x y n, presented s = some (.draw x y n) ∧ s.spX = s.reg x ∧ s.spY = s.reg y ∧ s.spN = n ∧
      ∀ r (h : r < 15), r < n.toNat → memRead s.mem (s.i.toNat + r) = some (s.spBuf[r]'h)

/-- The invariant of 10_state.md R37, clauses (a) to (c), and of the fault record (60_exceptions.md
R254: `pc_before` equals `pc` after the fault). Clause (d) is the type of `sp`. -/
structure Inv (s : State) : Prop where
  notBothWaits : ¬ (s.keyWait = true ∧ s.dataReady = true)
  keyWaitOk : KeyWaitOk s
  latchOk : LatchOk s
  faultPc : ∀ r, s.fault = some r → r.pcBefore = s.pc

/-- Every byte of memory reads as before. -/
def SameMemory (s t : State) : Prop := ∀ a, memRead t.mem a = memRead s.mem a

/-- Every byte of memory outside `[a, a + n)` reads as before. -/
def SameMemoryOutside (a n : Nat) (s t : State) : Prop :=
  ∀ b, b < a ∨ a + n ≤ b → memRead t.mem b = memRead s.mem b

/-- The call stack and its pointer are unchanged. -/
def SameStack (s t : State) : Prop := t.stack = s.stack ∧ t.sp = s.sp

/-- Both timers are unchanged. -/
def SameTimers (s t : State) : Prop := t.dt = s.dt ∧ t.st = s.st

/-- The key flags, the last edge and the key wait are unchanged. -/
def SameKeypad (s t : State) : Prop := t.keys = s.keys ∧ t.lastEdge = s.lastEdge ∧ t.keyWait = s.keyWait

/-- The two latches and the latched sprite are unchanged. -/
def SameLatch (s t : State) : Prop :=
  t.dataReady = s.dataReady ∧ t.vblankReady = s.vblankReady ∧ t.spX = s.spX ∧ t.spY = s.spY ∧
    t.spN = s.spN ∧ t.spBuf = s.spBuf

/-- The frame buffer and the display adapter are unchanged. -/
def SameDisplay (s t : State) : Prop := t.fb = s.fb ∧ SameLatch s t

/-- The configuration, the bank selector and the fault latch are unchanged. -/
def SameControl (s t : State) : Prop := t.cfg = s.cfg ∧ t.bankSel = s.bankSel ∧ t.fault = s.fault

/-- Every general register but those listed is unchanged. -/
def SameRegsBut (xs : List Nibble) (s t : State) : Prop := ∀ z, z ∉ xs → t.reg z = s.reg z

/-- What an instruction that only computes in registers leaves alone: all but `V`, `pc`, `I` and
`cycles`. -/
structure RestUnchanged (s t : State) : Prop where
  memory : SameMemory s t
  stack : SameStack s t
  timers : SameTimers s t
  keypad : SameKeypad s t
  display : SameDisplay s t
  control : SameControl s t
  draws : t.randomDraws = s.randomDraws

/-- What every ALU operation leaves (41_alu.md R140) for a result `r` and a flag `f`: with a flag, `VF`
holds the byte 0x00 or 0x01 and `V[x]` the result unless `x` = 15; with no flag, `V[x]` the result. -/
def AluResult (s t : State) (x : Nibble) (r : Byte) (f : Option Bool) : Prop :=
  t.pc = s.pc + 2 ∧ t.cycles = s.cycles + 1 ∧ t.i = s.i ∧ RestUnchanged s t ∧
    match f with
    | none => t.reg x = r ∧ SameRegsBut [x] s t
    | some b =>
      t.reg 15 = (if b then 0x01 else 0x00) ∧ (x ≠ 15 → t.reg x = r) ∧ SameRegsBut [x, 15] s t

/-- What a skip leaves (43_cpu.md R183): two bytes further than the next instruction iff `c`. -/
def SkipResult (s t : State) (c : Prop) : Prop :=
  (c → t.pc = s.pc + 4) ∧ (¬ c → t.pc = s.pc + 2) ∧ t.cycles = s.cycles + 1 ∧
    SameRegsBut [] s t ∧ t.i = s.i ∧ RestUnchanged s t

/-- What a register load leaves: `V[x] = b`, the next instruction, nothing else. -/
def LoadsRegister (s t : State) (x : Nibble) (b : Byte) : Prop :=
  t.reg x = b ∧ SameRegsBut [x] s t ∧ t.pc = s.pc + 2 ∧ t.cycles = s.cycles + 1 ∧ t.i = s.i

/-- A sprite to be drawn: column and row before reduction, and the rows' bytes, top to bottom. -/
structure Sprite where
  col : Byte
  row : Byte
  rows : List Byte
deriving DecidableEq, Repr

/-- The sprite a DRAW renders: the latched one if there is one, else the one it latches
(42_display.md R161). -/
def spriteOf (s : State) (x y n : Nibble) : Sprite :=
  if s.dataReady then ⟨s.spX, s.spY, s.spBuf.toList.take s.spN.toNat⟩
  else ⟨s.reg x, s.reg y, (List.range n.toNat).map fun r => s.mem.get (s.i.toNat + r)⟩

/-- The sprite in the adapter's latch (10_state.md R31). -/
def latchedSprite (s : State) : Sprite := ⟨s.spX, s.spY, s.spBuf.toList.take s.spN.toNat⟩

/-- A set bit of the sprite falls on the pixel in row `py`, column `px` (42_display.md R163, R164):
clipped, the origin is reduced once and the rest is cut off; wrapped, every coordinate is reduced. -/
def Covers (clip : Bool) (sp : Sprite) (py px : Nat) : Prop :=
  ∃ r b byte, sp.rows[r]? = some byte ∧ b < 8 ∧ byte.getLsbD (7 - b) = true ∧
    if clip then py = sp.row.toNat % 32 + r ∧ px = sp.col.toNat % 64 + b
    else py = (sp.row.toNat + r) % 32 ∧ px = (sp.col.toNat + b) % 64

/-- The step presents an instruction with one of these tags. -/
def PresentsOneOf (tags : List String) (s : State) : Prop :=
  ∃ i, presented s = some i ∧ i.mnemonic ∈ tags

/-- The register an instruction names as its destination `x` (10_state.md R21, R22). -/
def destination : Instr → Option Nibble
  | .movImm x _ => some x
  | .addImm x _ => some x
  | .mov x _ => some x
  | .or x _ => some x
  | .and x _ => some x
  | .xor x _ => some x
  | .add x _ => some x
  | .sub x _ => some x
  | .shr x _ => some x
  | .rsub x _ => some x
  | .shl x _ => some x
  | .random x _ => some x
  | .getDelay x => some x
  | .waitKey x => some x
  | .load x => some x
  | .cls => none
  | .ret => none
  | .jmp _ => none
  | .call _ => none
  | .skipEqImm _ _ => none
  | .skipNeImm _ _ => none
  | .skipEqReg _ _ => none
  | .skipNeReg _ _ => none
  | .ldi _ => none
  | .jmpOff _ _ => none
  | .draw _ _ _ => none
  | .skipKey _ => none
  | .skipNkey _ => none
  | .setDelay _ => none
  | .setSound _ => none
  | .addIndex _ => none
  | .font _ => none
  | .bcd _ => none
  | .store _ => none

end Sys2Proof.Machine
end

