-- ==== Sys2Proof/Certificates/Slice0/Obligations.lean ====
section
/-! DEFINITION. The statements for the provers, from the numbered rules of spec/. Where a statement rests
on a decision of the spec (92_eei_decisions.md D<n>) or on a choice of the model, its docstring says so. -/

open Sys2Proof Sys2Proof.Machine

/-! ### Encoding -/

/-- Decoding the encoding of a well-formed instruction gives it back, as a word and as the two bytes in
memory order, with every operand at every value. Rests on the bit patterns, the spec's D2 and D30. -/
def Obligations.DecodeOfEncodeIsTheInstruction : Prop :=
  ∀ (i : Instr) (rest : List Byte), i.wf = true →
    decodeWord (encode i) = some i ∧
      decodeBytes (highByte (encode i) :: lowByte (encode i) :: rest) = .instr i rest

/-- A word that decodes is the encoding of what it decodes to, which is well formed: no two words share
an instruction. Rests on the spec's D2, D30. -/
def Obligations.EncodeOfDecodeIsTheWord : Prop :=
  ∀ (w : Word) (i : Instr), decodeWord w = some i → i.wf = true ∧ encode i = w

/-- The decoder follows the opcode map row by row (`w` is the row's instruction iff `w and mask` equals
the row's pattern), and no word matches two rows. Rests on the spec's D2. -/
def Obligations.DecodeFollowsTheOpcodeMap : Prop :=
  (∀ r ∈ opcodeMap, ∀ w : Word,
    w &&& r.mask = r.pattern ↔ ∃ i, decodeWord w = some i ∧ i.mnemonic = r.mnemonic) ∧
  (∀ r ∈ opcodeMap, ∀ r' ∈ opcodeMap, ∀ w : Word,
    w &&& r.mask = r.pattern → w &&& r'.mask = r'.pattern → r = r')

/-- The decoder rejects exactly the words of the list of illegal encodings. Rests on the spec's D2, D4. -/
def Obligations.IllegalWordsAreExactlyTheListedOnes : Prop :=
  ∀ w : Word, decodeWord w = none ↔ IllegalWord w

/-- A few words written out from the rows of the opcode map, one or two of each family. -/
def Obligations.SampleWordsDecodeAsTheMapSays : Prop :=
  decodeWord 0x00E0 = some .cls ∧ decodeWord 0x00EE = some .ret ∧
  decodeWord 0x1234 = some (.jmp 0x234) ∧ decodeWord 0x332A = some (.skipEqImm 3 0x2A) ∧
  decodeWord 0x5120 = some (.skipEqReg 1 2) ∧ decodeWord 0x8126 = some (.shr 1 2) ∧
  decodeWord 0x812E = some (.shl 1 2) ∧ decodeWord 0xB210 = some (.jmpOff 0x210 2) ∧
  decodeWord 0xD125 = some (.draw 1 2 5) ∧ decodeWord 0xE5A1 = some (.skipNkey 5) ∧
  decodeWord 0xF133 = some (.bcd 1) ∧ decodeWord 0x5121 = none ∧ decodeWord 0x0000 = none

/-! ### The cycle: fetch, decode, dispatch -/

/-- When the two bytes at `pc` are those of a well-formed instruction and no fault is latched, the step
is `exec` of that instruction on the same state. `exec` is the whole of the instruction's step: it
advances `pc` past the word, counts the cycle of a retired step and restores `pc` for a hold (log 7). -/
def Obligations.StepRunsTheInstructionAtPc : Prop :=
  ∀ (s : State) (i : Instr), s.fault = none → i.wf = true →
    memRead s.mem s.pc.toNat = some (highByte (encode i)) →
    memRead s.mem (s.pc.toNat + 1) = some (lowByte (encode i)) →
    step s = exec i s

/-- The fetch is two bound-checked byte reads, big-endian, the second address formed without wrap. -/
def Obligations.FetchIsTwoByteReadsBigEndian : Prop :=
  ∀ (s : State) (w : Word), fetchWord s = some w ↔
    memRead s.mem s.pc.toNat = some (w.extractLsb' 8 8) ∧
      memRead s.mem (s.pc.toNat + 1) = some (w.extractLsb' 0 8)

/-- A fetch fails exactly at `pc >= 0x0FFF`, odd addresses included among the good ones, and then the
step latches InvalidAddress with no opcode. Rests on the spec's D1 (bank size), D5, D6, D24. -/
def Obligations.FetchFaultsExactlyAtTheTopOfTheBank : Prop :=
  ∀ s : State,
    (fetchWord s = none ↔ 0x0FFF ≤ s.pc.toNat) ∧
    (s.fault = none → 0x0FFF ≤ s.pc.toNat →
      step s = .next { s with fault := some ⟨.invalidAddress, s.pc, none⟩ })

/-- InvalidInstruction is raised by the illegal words and by nothing else, and its record holds the
offending word. Rests on the spec's D4, D5, D6. -/
def Obligations.InvalidInstructionIsRaisedByIllegalWordsOnly : Prop :=
  ∀ s : State, s.fault = none →
    (∀ w, fetchWord s = some w → IllegalWord w →
      step s = .next { s with fault := some ⟨.invalidInstruction, s.pc, some w⟩ }) ∧
    (∀ t r, step s = .next t → t.fault = some r → r.kind = .invalidInstruction →
      ∃ w, fetchWord s = some w ∧ IllegalWord w ∧ r.opcode = some w)

/-- StackOverflow is raised by CALL iff `sp` = 16 on entry, and by nothing else. -/
def Obligations.StackOverflowIsRaisedByCallAtDepth16Only : Prop :=
  ∀ s : State, s.fault = none →
    ((∃ t r, step s = .next t ∧ t.fault = some r ∧ r.kind = .stackOverflow) ↔
      ∃ nnn, presented s = some (.call nnn) ∧ s.sp.val = 16)

/-- InvalidAddress is raised in a step by the fetch, by the latch phase of DRAW, by BCD, and by STORE
and LOAD, each exactly when its range leaves the bank, and by nothing else. Rests on the spec's D1, D5,
D33. -/
def Obligations.InvalidAddressIsRaisedExactlyAsListed : Prop :=
  ∀ s : State, s.fault = none →
    ((∃ t r, step s = .next t ∧ t.fault = some r ∧ r.kind = .invalidAddress) ↔
      Config.memSize - 1 ≤ s.pc.toNat ∨
      (∃ x y n, presented s = some (.draw x y n) ∧ s.dataReady = false ∧ 0 < n.toNat ∧
        Config.memSize ≤ s.i.toNat + n.toNat - 1) ∨
      (∃ x, presented s = some (.bcd x) ∧ Config.memSize ≤ s.i.toNat + 2) ∨
      (∃ x, (presented s = some (.store x) ∨ presented s = some (.load x)) ∧
        Config.memSize ≤ s.i.toNat + x.toNat))

/-- Faults are precise: a step that faults changes the latch alone, and the record holds the `pc` before
the step and the word fetched, or no word when the fetch itself faulted. Rests on the spec's D5, D6. -/
def Obligations.FaultsArePrecise : Prop :=
  ∀ s t : State, step s = .next t → FaultedStep s t →
    ∃ k, t = { s with fault := some ⟨k, s.pc, fetchWord s⟩ }

/-- A faulted core is dead until reset: its step changes nothing, every event leaves the latch as it is
but `reset` and `load_rom`, and those clear it. Rests on the spec's D6, D28. -/
def Obligations.FaultedCoreIsDeadUntilReset : Prop :=
  ∀ (s : State) (r : FaultRecord), s.fault = some r →
    step s = .next s ∧
    (resetOp s).fault = none ∧ (∀ bytes, (loadRomOp bytes s).fault = none) ∧
    ∀ (e : Event) (t : State), e.outcome s = .next t → t.fault = some r ∨
      e = .host .reset ∨ ∃ bytes, e = .host (.loadRom bytes)

/-- Every step of a core without a fault has exactly one of the four outcomes: it retires and counts one
cycle, holds, faults, or has no meaning (RET on an empty stack; a key or glyph number above 15 under
`refuse`). Rests on the spec's D21 for the count and on log 2, 3 for the names of the last case. -/
def Obligations.EveryStepHasOneOfFourOutcomes : Prop :=
  ∀ s : State, s.fault = none →
    (∀ t, step s = .next t →
      (RetiredStep s t ∧ ¬ HeldStep s t ∧ ¬ FaultedStep s t) ∨
      (¬ RetiredStep s t ∧ HeldStep s t ∧ ¬ FaultedStep s t) ∨
      (¬ RetiredStep s t ∧ ¬ HeldStep s t ∧ FaultedStep s t ∧ t.cycles = s.cycles)) ∧
    (∀ f, step s = .fault f ↔
      f = .retEmptyStack ∧ presented s = some .ret ∧ s.sp.val = 0) ∧
    (∀ r, step s = .refused r ↔
      r = .indexAboveFifteen ∧ s.cfg.idxPolicy = .refuse ∧
        ∃ x, 15 < (s.reg x).toNat ∧ (presented s = some (.skipKey x) ∨
          presented s = some (.skipNkey x) ∨ presented s = some (.font x)))

/-- Only WAIT_KEY and a gated DRAW hold, and a held step changes only the wait-state bookkeeping. -/
def Obligations.HeldStepChangesOnlyTheWaitState : Prop :=
  ∀ s t : State, step s = .next t → HeldStep s t →
    ((∃ x, presented s = some (.waitKey x)) ∨
      (s.cfg.qVblankWait = true ∧ ∃ x y n, presented s = some (.draw x y n))) ∧
    t = { s with
      keyWait := t.keyWait, lastEdge := t.lastEdge, dataReady := t.dataReady,
      spX := t.spX, spY := t.spY, spN := t.spN, spBuf := t.spBuf }

/-- Idempotence: a held step whose wait bit was already set changes no element at all, as the spec
derives in R128. -/
def Obligations.HeldStepOfAWaitInProgressChangesNothing : Prop :=
  ∀ s t : State, step s = .next t → HeldStep s t →
    ((s.keyWait = true ∧ ∃ x, presented s = some (.waitKey x)) ∨
      (s.dataReady = true ∧ ∃ x y n, presented s = some (.draw x y n))) →
    t = s

/-! ### Invariants -/

/-- The invariant of the two waits and of the fault record is kept by every event, step or host
operation, from every state that meets it. -/
def Obligations.EveryEventKeepsTheWaitInvariant : Prop :=
  ∀ (e : Event) (s t : State), Inv s → e.outcome s = .next t → Inv t

/-- Every event keeps memory in its canonical form (the form is the model's, log 8). -/
def Obligations.EveryEventKeepsMemoryCanonical : Prop :=
  ∀ (e : Event) (s t : State), s.mem.wf = true → e.outcome s = .next t → t.mem.wf = true

/-- The reset state meets both invariants, under every configuration. -/
def Obligations.ResetMeetsTheInvariants : Prop :=
  ∀ c : Cfg, Inv (State.resetWith c) ∧ (State.resetWith c).mem.wf = true

/-- In every state reachable from reset by steps and host operations the clauses (a) to (e) of the spec's
list hold. The histories in (b), (c) and (e) are stated event by event: an event after which `key_wait` or
`data_ready` is set, be it the step that sets it or one during the wait, leaves `pc` and memory as they
were; and a step from a faulted state changes nothing. -/
def Obligations.ReachableStatesMeetTheListedClauses : Prop :=
  ∀ s : State, Reachable s →
    ¬ (s.keyWait = true ∧ s.dataReady = true) ∧
    (s.keyWait = true → ∃ x, presented s = some (.waitKey x)) ∧
    (s.dataReady = true → ∃ x y, presented s = some (.draw x y s.spN) ∧
      s.spX = s.reg x ∧ s.spY = s.reg y ∧
      ∀ r (h : r < 15), r < s.spN.toNat → memRead s.mem (s.i.toNat + r) = some (s.spBuf[r]'h)) ∧
    s.sp.val ≤ 16 ∧
    (s.fault ≠ none → step s = .next s) ∧
    (∀ (e : Event) (t : State), e.outcome s = .next t → t.keyWait = true ∨ t.dataReady = true →
      t.pc = s.pc ∧ t.mem = s.mem)

/-- Which instructions can change which element in one step: the writers that the state rules list. No
step writes the configuration, the bank selector or the key flags. Rests on the spec's D12, D26. -/
def Obligations.StepWritesOnlyWhatTheStateRulesList : Prop :=
  ∀ s t : State, step s = .next t →
    t.cfg = s.cfg ∧ t.bankSel = s.bankSel ∧ t.keys = s.keys ∧
    (t.stack = s.stack ∨ PresentsOneOf ["CALL"] s) ∧
    (t.sp = s.sp ∨ PresentsOneOf ["CALL", "RET"] s) ∧
    (t.i = s.i ∨ PresentsOneOf ["LDI", "FONT", "ADD_INDEX", "STORE", "LOAD"] s) ∧
    (t.mem = s.mem ∨ PresentsOneOf ["BCD", "STORE"] s) ∧
    (t.fb = s.fb ∨ PresentsOneOf ["DRAW", "CLS"] s) ∧
    (SameLatch s t ∨ PresentsOneOf ["DRAW"] s) ∧
    (t.dt = s.dt ∨ PresentsOneOf ["SET_DELAY"] s) ∧
    (t.st = s.st ∨ PresentsOneOf ["SET_SOUND"] s) ∧
    ((t.keyWait = s.keyWait ∧ t.lastEdge = s.lastEdge) ∨ PresentsOneOf ["WAIT_KEY"] s) ∧
    (t.randomDraws = s.randomDraws ∨ PresentsOneOf ["RANDOM"] s) ∧
    (t.v = s.v ∨ PresentsOneOf ["MOV_IMM", "ADD_IMM", "MOV", "OR", "AND", "XOR", "ADD", "SUB", "SHR",
      "RSUB", "SHL", "RANDOM", "GET_DELAY", "WAIT_KEY", "LOAD", "DRAW"] s)

/-- `VF` changes only as the flag of the listed instructions, under the quirks that make OR, AND, XOR and
MOV write it, or as a named destination `x` = 15. Rests on the spec's D10, D12. -/
def Obligations.VfIsWrittenOnlyAsFlagOrDestination : Prop :=
  ∀ s t : State, step s = .next t →
    t.reg 15 = s.reg 15 ∨
    PresentsOneOf ["ADD", "SUB", "RSUB", "SHR", "SHL", "DRAW"] s ∨
    (s.cfg.qVfReset = true ∧ PresentsOneOf ["OR", "AND", "XOR"] s) ∨
    (s.cfg.pMovResetsVf = true ∧ PresentsOneOf ["MOV"] s) ∨
    ∃ i, presented s = some i ∧ destination i = some 15

/-! ### Memory and reset -/

/-- Reads and writes are bound-checked, a read returns what was last written to its address, and a write
changes that one byte and nothing else. The premise is the invariant of the canonical form (log 8). -/
def Obligations.MemoryReadsWhatWasLastWritten : Prop :=
  ∀ (m : Memory) (a : Nat) (v : Byte), m.wf = true →
    (Config.memSize ≤ a → memRead m a = none ∧ memWrite m a v = none) ∧
    (a < Config.memSize → (∃ b, memRead m a = some b) ∧
      ∃ m', memWrite m a v = some m' ∧ m'.wf = true ∧ memRead m' a = some v ∧
        ∀ b, b ≠ a → memRead m' b = memRead m b)

/-- Two memories in canonical form that read alike at every address are the same data (the form is the
model's, log 8). -/
def Obligations.CanonicalMemoriesThatReadAlikeAreEqual : Prop :=
  ∀ m m' : Memory, m.wf = true → m'.wf = true →
    (∀ a, memRead m a = memRead m' a) → m = m'

/-- What `reset()` leaves from any state: the entry point in `pc`, the font table in memory, every other
element zero, idle or empty, the configuration untouched. The zeros are the spec's D7; the font is the
configuration's parameter `FONT_DATA`, the spec's D8; `bank_sel` has no other value. -/
def Obligations.ResetLeavesTheListedValues : Prop :=
  ∀ s : State,
    (resetOp s).pc = 0x0200 ∧ (resetOp s).i = 0 ∧ (resetOp s).sp = 0 ∧
    (∀ x, (resetOp s).reg x = 0) ∧ (∀ j (h : j < 16), (resetOp s).stack[j]'h = 0) ∧
    (resetOp s).dt = 0 ∧ (resetOp s).st = 0 ∧ (∀ k, (resetOp s).keyDown k = false) ∧
    (resetOp s).lastEdge = none ∧ (resetOp s).keyWait = false ∧
    (∀ j (h : j < 80), memRead (resetOp s).mem (0x0050 + j) = some (s.cfg.fontData[j]'h)) ∧
    (∀ a, a < 0x1000 → a < 0x0050 ∨ 0x00A0 ≤ a → memRead (resetOp s).mem a = some 0) ∧
    (resetOp s).bankSel = 0 ∧ (∀ y x, pixelAt (resetOp s).fb y x = false) ∧
    (resetOp s).dataReady = false ∧ (resetOp s).vblankReady = false ∧
    (resetOp s).spX = 0 ∧ (resetOp s).spY = 0 ∧ (resetOp s).spN = 0 ∧
    (∀ r (h : r < 15), (resetOp s).spBuf[r]'h = 0) ∧
    (resetOp s).cfg = s.cfg ∧ (resetOp s).fault = none ∧ (resetOp s).cycles = 0

/-! ### The CPU family -/

/-- RET pops the top of the stack into `pc`, the popped slot keeping its content (the spec's D15); on an
empty stack the spec gives no next state and the model stops by a name of its own (log 3). -/
def Obligations.RetPopsTheStackIntoPc : Prop :=
  ∀ s : State,
    (s.sp.val = 0 → exec .ret s = .fault .retEmptyStack) ∧
    (∀ j (h : j < 16), s.sp.val = j + 1 →
      ∃ t, exec .ret s = .next t ∧ t.sp.val = j ∧ t.pc = s.stack[j]'h ∧ t.stack = s.stack ∧
        t.cycles = s.cycles + 1 ∧ SameRegsBut [] s t ∧ t.i = s.i ∧ SameMemory s t ∧
        SameTimers s t ∧ SameKeypad s t ∧ SameDisplay s t ∧ SameControl s t ∧
        t.randomDraws = s.randomDraws)

/-- CALL pushes the address after itself and jumps; at depth 16 it raises StackOverflow and changes
nothing else. What `sp` counts is the spec's D15, the precise fault and its record its D5, D6, the word in
the record its D2. -/
def Obligations.CallPushesOrRaisesStackOverflow : Prop :=
  ∀ (s : State) (nnn : Addr),
    (s.sp.val = 16 → exec (.call nnn) s =
      .next { s with fault := some ⟨.stackOverflow, s.pc, some (encode (.call nnn))⟩ }) ∧
    (∀ h : s.sp.val < 16,
      ∃ t, exec (.call nnn) s = .next t ∧ t.sp.val = s.sp.val + 1 ∧
        t.stack[s.sp.val]'h = s.pc + 2 ∧
        (∀ j (hj : j < 16), j ≠ s.sp.val → t.stack[j]'hj = s.stack[j]'hj) ∧
        t.pc.toNat = nnn.toNat ∧ t.cycles = s.cycles + 1 ∧ SameRegsBut [] s t ∧ t.i = s.i ∧
        SameMemory s t ∧ SameTimers s t ∧ SameKeypad s t ∧ SameDisplay s t ∧ SameControl s t ∧
        t.randomDraws = s.randomDraws)

/-- JMP sets `pc` to its 12-bit target and changes nothing else. -/
def Obligations.JmpSetsPc : Prop :=
  ∀ (s : State) (nnn : Addr), ∃ t, exec (.jmp nnn) s = .next t ∧ t.pc.toNat = nnn.toNat ∧
    t.cycles = s.cycles + 1 ∧ SameRegsBut [] s t ∧ t.i = s.i ∧ RestUnchanged s t

/-- JMP_OFF adds V0, or V[x] with `x` the high nibble of `nnn`, to its immediate, unmasked (the spec's
D14), and changes nothing else. -/
def Obligations.JmpOffAddsTheOffsetRegister : Prop :=
  ∀ (s : State) (nnn : Addr), ∃ t,
    exec (.jmpOff nnn (nnn.extractLsb' 8 4)) s = .next t ∧
    t.pc.toNat = nnn.toNat +
      (s.reg (if s.cfg.qJumpVx then BitVec.ofNat 4 (nnn.toNat / 256) else 0)).toNat ∧
    t.cycles = s.cycles + 1 ∧ SameRegsBut [] s t ∧ t.i = s.i ∧ RestUnchanged s t

/-- The four skips of the CPU family: exactly one instruction further on a match, nothing else changed. -/
def Obligations.CpuSkipsAdvancePcByFourOrTwo : Prop :=
  ∀ (s : State) (x y : Nibble) (nn : Byte),
    (∃ t, exec (.skipEqImm x nn) s = .next t ∧ SkipResult s t (s.reg x = nn)) ∧
    (∃ t, exec (.skipNeImm x nn) s = .next t ∧ SkipResult s t (s.reg x ≠ nn)) ∧
    (∃ t, exec (.skipEqReg x y) s = .next t ∧ SkipResult s t (s.reg x = s.reg y)) ∧
    (∃ t, exec (.skipNeReg x y) s = .next t ∧ SkipResult s t (s.reg x ≠ s.reg y))

/-- MOV_IMM loads its immediate; `VF` changes only if `x` = 15. -/
def Obligations.MovImmLoadsTheImmediate : Prop :=
  ∀ (s : State) (x : Nibble) (nn : Byte), ∃ t,
    exec (.movImm x nn) s = .next t ∧ LoadsRegister s t x nn ∧ RestUnchanged s t

/-- ADD_IMM adds modulo 256 and writes no flag (the spec's D12). -/
def Obligations.AddImmAddsWithoutAFlag : Prop :=
  ∀ (s : State) (x : Nibble) (nn : Byte), ∃ t,
    exec (.addImm x nn) s = .next t ∧
    LoadsRegister s t x (BitVec.ofNat 8 (((s.reg x).toNat + nn.toNat) % 256)) ∧ RestUnchanged s t

/-- LDI loads the zero-extended 12-bit immediate into `I`. -/
def Obligations.LdiLoadsTheIndexRegister : Prop :=
  ∀ (s : State) (nnn : Addr), ∃ t,
    exec (.ldi nnn) s = .next t ∧ t.i.toNat = nnn.toNat ∧ t.pc = s.pc + 2 ∧
    t.cycles = s.cycles + 1 ∧ SameRegsBut [] s t ∧ RestUnchanged s t

/-- RANDOM stores one fresh draw under its mask, whatever the draw: a bit outside the mask is 0, a bit
inside it is the free byte's. The draw is the free value of log 4 (the spec's D16), one per execution;
the statement holds for every value of the draw counter. -/
def Obligations.RandomStoresOneMaskedDraw : Prop :=
  ∀ (s : State) (x : Nibble) (nn : Byte), ∃ t,
    exec (.random x nn) s = .next t ∧
    (∀ b, b < 8 → (t.reg x).getLsbD b =
      (nn.getLsbD b && (Config.randomByte s.randomDraws).getLsbD b)) ∧
    t.randomDraws = s.randomDraws + 1 ∧ SameRegsBut [x] s t ∧ t.pc = s.pc + 2 ∧
    t.cycles = s.cycles + 1 ∧ t.i = s.i ∧ SameMemory s t ∧ SameStack s t ∧ SameTimers s t ∧
    SameKeypad s t ∧ SameDisplay s t ∧ SameControl s t

/-! ### The ALU family. The order "flag last" for `x` = 15 is the spec's D11. -/

/-- MOV copies `Vy`; `VF` is unchanged, or 0 under `p_mov_resets_vf` (the spec's D10). -/
def Obligations.MovCopiesTheRegister : Prop :=
  ∀ (s : State) (x y : Nibble), ∃ t, exec (.mov x y) s = .next t ∧
    AluResult s t x (s.reg y) (if s.cfg.pMovResetsVf then some false else none)

/-- OR, AND, XOR are bitwise on all 8 bits; the flag is reset under `q_vf_reset`, else unchanged. -/
def Obligations.BitwiseOperationsCombineEveryBit : Prop :=
  ∀ (s : State) (x y : Nibble),
    (∃ t r, exec (.or x y) s = .next t ∧
      AluResult s t x r (if s.cfg.qVfReset then some false else none) ∧
      ∀ b, b < 8 → r.getLsbD b = ((s.reg x).getLsbD b || (s.reg y).getLsbD b)) ∧
    (∃ t r, exec (.and x y) s = .next t ∧
      AluResult s t x r (if s.cfg.qVfReset then some false else none) ∧
      ∀ b, b < 8 → r.getLsbD b = ((s.reg x).getLsbD b && (s.reg y).getLsbD b)) ∧
    (∃ t r, exec (.xor x y) s = .next t ∧
      AluResult s t x r (if s.cfg.qVfReset then some false else none) ∧
      ∀ b, b < 8 → r.getLsbD b = Bool.xor ((s.reg x).getLsbD b) ((s.reg y).getLsbD b))

/-- ADD is the sum modulo 256, and its flag is 1 iff the exact sum exceeds 255. -/
def Obligations.AddSetsTheCarryFlag : Prop :=
  ∀ (s : State) (x y : Nibble), ∃ t, exec (.add x y) s = .next t ∧
    AluResult s t x (BitVec.ofNat 8 (((s.reg x).toNat + (s.reg y).toNat) % 256))
      (some (decide (255 < (s.reg x).toNat + (s.reg y).toNat)))

/-- SUB and RSUB are the differences modulo 256; the flag is 1 iff there is no borrow, equal operands
counting as no borrow. -/
def Obligations.SubAndRsubSetTheNoBorrowFlag : Prop :=
  ∀ (s : State) (x y : Nibble),
    (∃ t, exec (.sub x y) s = .next t ∧
      AluResult s t x (BitVec.ofInt 8 ((s.reg x).toNat - (s.reg y).toNat : Int))
        (some (decide ((s.reg y).toNat ≤ (s.reg x).toNat)))) ∧
    (∃ t, exec (.rsub x y) s = .next t ∧
      AluResult s t x (BitVec.ofInt 8 ((s.reg y).toNat - (s.reg x).toNat : Int))
        (some (decide ((s.reg x).toNat ≤ (s.reg y).toNat))))

/-- SHR and SHL shift by one place, the vacated bit 0, the flag the bit pushed out of the pre-shift value,
which is `Vx` under `q_shift_ignores_y` and `Vy` otherwise. -/
def Obligations.ShiftsMoveOneBitIntoTheFlag : Prop :=
  ∀ (s : State) (x y : Nibble) (a : Byte),
    a = (if s.cfg.qShiftIgnoresY then s.reg x else s.reg y) →
    (∃ t, exec (.shr x y) s = .next t ∧
      AluResult s t x (BitVec.ofNat 8 (a.toNat / 2)) (some (decide (a.toNat % 2 = 1)))) ∧
    (∃ t, exec (.shl x y) s = .next t ∧
      AluResult s t x (BitVec.ofNat 8 (2 * a.toNat % 256)) (some (decide (128 ≤ a.toNat))))

/-! ### The display family -/

/-- DRAW with the gate shut latches coordinates, row count and sprite bytes, holds at its own address,
and changes nothing else; a sprite already latched is left as it is. -/
def Obligations.DrawLatchesAndHoldsWhileTheGateIsShut : Prop :=
  ∀ (s : State) (x y n : Nibble),
    s.cfg.qVblankWait = true → s.vblankReady = false →
    (s.dataReady = true → exec (.draw x y n) s = .next s) ∧
    (s.dataReady = false → n.toNat = 0 ∨ s.i.toNat + n.toNat ≤ Config.memSize →
      ∃ t, exec (.draw x y n) s = .next t ∧
        latchedSprite t =
          ⟨s.reg x, s.reg y, (List.range n.toNat).map fun r => s.mem.get (s.i.toNat + r)⟩ ∧
        t.spN = n ∧ t.dataReady = true ∧ t.vblankReady = false ∧ t.pc = s.pc ∧
        t.cycles = s.cycles ∧ t.fb = s.fb ∧ SameRegsBut [] s t ∧ t.i = s.i ∧ SameMemory s t ∧
        SameStack s t ∧ SameTimers s t ∧ SameKeypad s t ∧ SameControl s t ∧
        t.randomDraws = s.randomDraws)

/-- DRAW with the gate open renders the sprite: every pixel on the screen is toggled iff a set bit of the
sprite falls on it, clipped or wrapped; `VF` is 1 iff a lit pixel was turned off, else 0; both latches
end idle; `pc` is at the next instruction. Bit 7 leftmost is the spec's D18, the gate its D17, zero rows
its D33. That the rendered sprite stays in the latch, dead, is R166; it is unobservable (log 24). -/
def Obligations.DrawTogglesExactlyTheCoveredPixels : Prop :=
  ∀ (s : State) (x y n : Nibble),
    s.cfg.qVblankWait = false ∨ s.vblankReady = true →
    s.dataReady = true ∨ n.toNat = 0 ∨ s.i.toNat + n.toNat ≤ Config.memSize →
    ∃ t, exec (.draw x y n) s = .next t ∧
      (∀ py px, py < 32 → px < 64 → (pixelAt t.fb py px = true ↔
        ¬ (pixelAt s.fb py px = true ↔ Covers s.cfg.qClip (spriteOf s x y n) py px))) ∧
      (t.reg 15 = 1 ↔ ∃ py px, py < 32 ∧ px < 64 ∧ pixelAt s.fb py px = true ∧
        Covers s.cfg.qClip (spriteOf s x y n) py px) ∧
      (t.reg 15 = 0 ∨ t.reg 15 = 1) ∧ SameRegsBut [15] s t ∧
      t.dataReady = false ∧ t.vblankReady = false ∧ latchedSprite t = spriteOf s x y n ∧
      t.pc = s.pc + 2 ∧ t.cycles = s.cycles + 1 ∧ t.i = s.i ∧ SameMemory s t ∧ SameStack s t ∧
      SameTimers s t ∧ SameKeypad s t ∧ SameControl s t ∧ t.randomDraws = s.randomDraws

/-- DRAW whose sprite runs off the top of memory faults in its latch phase and latches nothing; with a
sprite already latched, no rows, or rows inside the bank, it goes on without a fault. Rests on the spec's
D1, D5, D6, D33. -/
def Obligations.DrawFaultsOnlyWhenItLatchesOutsideTheBank : Prop :=
  ∀ (s : State) (x y n : Nibble),
    (s.dataReady = false → 0 < n.toNat → Config.memSize ≤ s.i.toNat + n.toNat - 1 →
      exec (.draw x y n) s =
        .next { s with fault := some ⟨.invalidAddress, s.pc, some (encode (.draw x y n))⟩ }) ∧
    (s.fault = none →
      s.dataReady = true ∨ n.toNat = 0 ∨ s.i.toNat + n.toNat ≤ Config.memSize →
      ∃ t, exec (.draw x y n) s = .next t ∧ t.fault = none)

/-- A gated DRAW that holds completes on the first step after `vblank_trigger()`. The latch set with or
without a pending draw is the spec's D17. -/
def Obligations.VblankCompletesAPendingDraw : Prop :=
  ∀ (s : State) (x y n : Nibble), s.fault = none → presented s = some (.draw x y n) →
    s.dataReady = true →
    ∃ t, step (vblankTriggerOp s) = .next t ∧ RetiredStep s t ∧ t.dataReady = false ∧
      t.vblankReady = false ∧ t.pc = s.pc + 2

/-- CLS turns every pixel off and touches nothing else, the latches and `VF` included. That the machine
has CLS is the spec's D3. -/
def Obligations.ClsClearsEveryPixelAndNothingElse : Prop :=
  ∀ s : State, ∃ t, exec .cls s = .next t ∧ (∀ y x, pixelAt t.fb y x = false) ∧
    t.pc = s.pc + 2 ∧ t.cycles = s.cycles + 1 ∧ SameRegsBut [] s t ∧ t.i = s.i ∧ SameMemory s t ∧
    SameStack s t ∧ SameTimers s t ∧ SameKeypad s t ∧ SameLatch s t ∧ SameControl s t ∧
    t.randomDraws = s.randomDraws

/-! ### The System family -/

/-- SKIP_KEY and SKIP_NKEY test the live flag of the key numbered `Vx` and change nothing but `pc`; a
number above 15 has no meaning under `refuse` and its low four bits under `mask4` (the spec's D19; the
refusal's name is log 2). -/
def Obligations.KeySkipsTestTheLiveKeyFlag : Prop :=
  ∀ (s : State) (x : Nibble),
    ((s.reg x).toNat ≤ 15 ∨ s.cfg.idxPolicy = .mask4 →
      (∃ t, exec (.skipKey x) s = .next t ∧
        SkipResult s t (s.keyDown (BitVec.ofNat 4 ((s.reg x).toNat % 16)) = true)) ∧
      (∃ t, exec (.skipNkey x) s = .next t ∧
        SkipResult s t (s.keyDown (BitVec.ofNat 4 ((s.reg x).toNat % 16)) = false))) ∧
    (15 < (s.reg x).toNat → s.cfg.idxPolicy = .refuse →
      exec (.skipKey x) s = .refused .indexAboveFifteen ∧
      exec (.skipNkey x) s = .refused .indexAboveFifteen)

/-- The blocking key read as a state machine: first presentation to waiting with the edge cleared;
waiting without a release, no change; waiting with a release, to idle with the key stored; key events
keep waiting and are recorded; `reset` and `load_rom` go to idle; nothing else leaves waiting. -/
def Obligations.WaitKeyIsATwoStateMachine : Prop :=
  (∀ (s : State) (x : Nibble), s.keyWait = false →
    exec (.waitKey x) s = .next { s with keyWait := true, lastEdge := none }) ∧
  (∀ (s : State) (x : Nibble), s.keyWait = true → (∀ k, s.lastEdge ≠ some (.release k)) →
    exec (.waitKey x) s = .next s) ∧
  (∀ (s : State) (x k : Nibble), s.keyWait = true → s.lastEdge = some (.release k) →
    ∃ t, exec (.waitKey x) s = .next t ∧ t.keyWait = false ∧ t.reg x = k.setWidth 8 ∧
      t.pc = s.pc + 2 ∧ t.cycles = s.cycles + 1) ∧
  (∀ (s : State) (k : Nibble), s.keyWait = true →
    (keypressOp k s).keyWait = true ∧ (keypressOp k s).lastEdge = some (.press k) ∧
    (keypressOp k s).keyDown k = true ∧
    (keyreleaseOp k s).keyWait = true ∧ (keyreleaseOp k s).lastEdge = some (.release k) ∧
    (keyreleaseOp k s).keyDown k = false) ∧
  (∀ (s : State) (bytes : List Byte),
    (resetOp s).keyWait = false ∧ (loadRomOp bytes s).keyWait = false) ∧
  (∀ (e : Event) (s t : State), s.keyWait = true → e.outcome s = .next t → t.keyWait = false →
    e = .host .reset ∨ (∃ bytes, e = .host (.loadRom bytes)) ∨
    (e = .step ∧ ∃ x k, presented s = some (.waitKey x) ∧ s.lastEdge = some (.release k)))

/-- A waiting WAIT_KEY whose latest edge is the release of `k` completes: `k` in `Vx`, idle again, the
next instruction, nothing else changed; the edge stays (the spec's D20). -/
def Obligations.WaitKeyStoresTheReleasedKey : Prop :=
  ∀ (s : State) (x k : Nibble), s.keyWait = true → s.lastEdge = some (.release k) →
    ∃ t, exec (.waitKey x) s = .next t ∧
      LoadsRegister s t x (BitVec.ofNat 8 k.toNat) ∧ t.keyWait = false ∧
      t.keys = s.keys ∧ t.lastEdge = s.lastEdge ∧ SameMemory s t ∧
      SameStack s t ∧ SameTimers s t ∧ SameDisplay s t ∧ SameControl s t ∧
      t.randomDraws = s.randomDraws

/-- GET_DELAY, SET_DELAY and SET_SOUND move one byte between a register and a timer and change nothing
else. -/
def Obligations.TimerInstructionsMoveOneByte : Prop :=
  ∀ (s : State) (x : Nibble),
    (∃ t, exec (.getDelay x) s = .next t ∧ LoadsRegister s t x s.dt ∧ RestUnchanged s t) ∧
    (∃ t, exec (.setDelay x) s = .next t ∧ t.dt = s.reg x ∧ t.st = s.st ∧ t.pc = s.pc + 2 ∧
      t.cycles = s.cycles + 1 ∧ SameRegsBut [] s t ∧ t.i = s.i ∧ SameMemory s t ∧ SameStack s t ∧
      SameKeypad s t ∧ SameDisplay s t ∧ SameControl s t ∧ t.randomDraws = s.randomDraws) ∧
    (∃ t, exec (.setSound x) s = .next t ∧ t.st = s.reg x ∧ t.dt = s.dt ∧ t.pc = s.pc + 2 ∧
      t.cycles = s.cycles + 1 ∧ SameRegsBut [] s t ∧ t.i = s.i ∧ SameMemory s t ∧ SameStack s t ∧
      SameKeypad s t ∧ SameDisplay s t ∧ SameControl s t ∧ t.randomDraws = s.randomDraws)

/-- ADD_INDEX adds modulo 2^16 and writes no flag (the spec's D12, D13). -/
def Obligations.AddIndexWrapsAtSixteenBits : Prop :=
  ∀ (s : State) (x : Nibble), ∃ t, exec (.addIndex x) s = .next t ∧
    t.i.toNat = (s.i.toNat + (s.reg x).toNat) % 65536 ∧ t.pc = s.pc + 2 ∧
    t.cycles = s.cycles + 1 ∧ SameRegsBut [] s t ∧ RestUnchanged s t

/-- FONT points `I` at the glyph numbered `Vx`; a number above 15 as for the key skips (the spec's D19;
log 2). -/
def Obligations.FontComputesTheGlyphAddress : Prop :=
  ∀ (s : State) (x : Nibble),
    ((s.reg x).toNat ≤ 15 ∨ s.cfg.idxPolicy = .mask4 → ∃ t, exec (.font x) s = .next t ∧
      t.i.toNat = 0x0050 + 5 * ((s.reg x).toNat % 16) ∧ t.pc = s.pc + 2 ∧
      t.cycles = s.cycles + 1 ∧ SameRegsBut [] s t ∧ RestUnchanged s t) ∧
    (15 < (s.reg x).toNat → s.cfg.idxPolicy = .refuse →
      exec (.font x) s = .refused .indexAboveFifteen)

/-- BCD stores the three decimal digits of `Vx` at `I`, `I+1`, `I+2`, hundreds first, each 0 to 9, `I`
unchanged; when the range leaves the bank it faults and writes nothing (the spec's D1, D5, D6). The
premise is the invariant of the canonical form (log 8). -/
def Obligations.BcdStoresTheThreeDecimalDigits : Prop :=
  ∀ (s : State) (x : Nibble), s.mem.wf = true →
    (s.i.toNat + 2 < Config.memSize → ∃ t h d u, exec (.bcd x) s = .next t ∧
      100 * h + 10 * d + u = (s.reg x).toNat ∧ h ≤ 2 ∧ d ≤ 9 ∧ u ≤ 9 ∧
      memRead t.mem s.i.toNat = some (BitVec.ofNat 8 h) ∧
      memRead t.mem (s.i.toNat + 1) = some (BitVec.ofNat 8 d) ∧
      memRead t.mem (s.i.toNat + 2) = some (BitVec.ofNat 8 u) ∧
      SameMemoryOutside s.i.toNat 3 s t ∧ t.pc = s.pc + 2 ∧ t.cycles = s.cycles + 1 ∧
      SameRegsBut [] s t ∧ t.i = s.i ∧ SameStack s t ∧ SameTimers s t ∧ SameKeypad s t ∧
      SameDisplay s t ∧ SameControl s t ∧ t.randomDraws = s.randomDraws) ∧
    (Config.memSize ≤ s.i.toNat + 2 → exec (.bcd x) s =
      .next { s with fault := some ⟨.invalidAddress, s.pc, some (encode (.bcd x))⟩ })

/-- STORE writes `V0` to `Vx` at ascending addresses from `I` and adds `x + 1` to `I` under the quirk;
when the range leaves the bank it faults and writes nothing (the spec's D1, D5, D6). The premise is the
invariant of the canonical form (log 8). -/
def Obligations.StoreWritesTheRegisterBlock : Prop :=
  ∀ (s : State) (x : Nibble), s.mem.wf = true →
    (s.i.toNat + x.toNat < Config.memSize → ∃ t, exec (.store x) s = .next t ∧
      (∀ r : Nibble, r ≤ x → memRead t.mem (s.i.toNat + r.toNat) = some (s.reg r)) ∧
      SameMemoryOutside s.i.toNat (x.toNat + 1) s t ∧
      t.i.toNat = (if s.cfg.qIndexInc then (s.i.toNat + x.toNat + 1) % 65536 else s.i.toNat) ∧
      t.pc = s.pc + 2 ∧ t.cycles = s.cycles + 1 ∧ SameRegsBut [] s t ∧ SameStack s t ∧
      SameTimers s t ∧ SameKeypad s t ∧ SameDisplay s t ∧ SameControl s t ∧
      t.randomDraws = s.randomDraws) ∧
    (Config.memSize ≤ s.i.toNat + x.toNat → exec (.store x) s =
      .next { s with fault := some ⟨.invalidAddress, s.pc, some (encode (.store x))⟩ })

/-- LOAD reads `V0` to `Vx` from ascending addresses from `I` and adds `x + 1` to `I` under the quirk;
registers above `x` and all of memory are untouched; when the range leaves the bank it faults and loads
nothing (the spec's D1, D5, D6). -/
def Obligations.LoadReadsTheRegisterBlock : Prop :=
  ∀ (s : State) (x : Nibble),
    (s.i.toNat + x.toNat < Config.memSize → ∃ t, exec (.load x) s = .next t ∧
      (∀ r : Nibble, r ≤ x → memRead s.mem (s.i.toNat + r.toNat) = some (t.reg r)) ∧
      (∀ r : Nibble, x < r → t.reg r = s.reg r) ∧
      t.i.toNat = (if s.cfg.qIndexInc then (s.i.toNat + x.toNat + 1) % 65536 else s.i.toNat) ∧
      t.pc = s.pc + 2 ∧ t.cycles = s.cycles + 1 ∧ RestUnchanged s t) ∧
    (Config.memSize ≤ s.i.toNat + x.toNat → exec (.load x) s =
      .next { s with fault := some ⟨.invalidAddress, s.pc, some (encode (.load x))⟩ })

/-- Storing registers `V0` to `Vx` and loading them back from the same index register, into registers
that may have changed meanwhile, reproduces their values; under the increment quirk `I` ends `x + 1`
higher after either. The bank's size is the spec's D1; the premise is the invariant of the canonical form
(log 8). -/
def Obligations.StoreThenLoadRestoresTheRegisters : Prop :=
  ∀ (s t u : State) (x : Nibble), s.mem.wf = true → s.i.toNat + x.toNat < Config.memSize →
    exec (.store x) s = .next t → u.mem = t.mem → u.i = s.i → u.cfg = s.cfg →
    ∃ w, exec (.load x) u = .next w ∧ (∀ r : Nibble, r ≤ x → w.reg r = s.reg r) ∧
      t.i = (if s.cfg.qIndexInc then s.i + x.setWidth 16 + 1 else s.i) ∧ w.i = t.i

/-! ### The host operations -/

/-- `decrement_timers()` counts both timers down by one, floored at 0, independently, and changes nothing
else. -/
def Obligations.DecrementTimersFloorsAtZero : Prop :=
  ∀ s : State, (decrementTimersOp s).dt.toNat = s.dt.toNat - 1 ∧
    (decrementTimersOp s).st.toNat = s.st.toNat - 1 ∧
    decrementTimersOp s =
      { s with dt := (decrementTimersOp s).dt, st := (decrementTimersOp s).st }

/-- `keypress(k)` and `keyrelease(k)` set and clear that key's flag alone and record the edge whether or
not the flag changes (the spec's D20). -/
def Obligations.KeyEventsSetOneFlagAndTheEdge : Prop :=
  ∀ (s : State) (k j : Nibble),
    (keypressOp k s).keyDown j = (decide (j = k) || s.keyDown j) ∧
    (keypressOp k s).lastEdge = some (.press k) ∧
    keypressOp k s = { s with keys := (keypressOp k s).keys, lastEdge := some (.press k) } ∧
    (keyreleaseOp k s).keyDown j = (!decide (j = k) && s.keyDown j) ∧
    (keyreleaseOp k s).lastEdge = some (.release k) ∧
    keyreleaseOp k s = { s with keys := (keyreleaseOp k s).keys, lastEdge := some (.release k) }

/-- `load_rom(bytes)` resets the core and places the bytes at 0x0200; more than 3584 bytes are reported as
InvalidAddress and leave the reset state with no program and no latched fault (the spec's D23). -/
def Obligations.LoadRomResetsThenPlacesTheProgram : Prop :=
  ∀ (s : State) (bytes : List Byte),
    (bytes.length ≤ 3584 →
      loadRomReport bytes s = none ∧
      (∀ j, j < bytes.length → memRead (loadRomOp bytes s).mem (0x0200 + j) = bytes[j]?) ∧
      (∀ a, a < 0x0200 ∨ 0x0200 + bytes.length ≤ a →
        memRead (loadRomOp bytes s).mem a = memRead (resetOp s).mem a) ∧
      loadRomOp bytes s = { resetOp s with mem := (loadRomOp bytes s).mem }) ∧
    (3584 < bytes.length →
      loadRomReport bytes s = some .invalidAddress ∧ loadRomOp bytes s = resetOp s)

/-- `get_output_buffer()` is 2048 bytes of 0x00 or 0x01, element `y*64 + x` the pixel in row `y`, column
`x` (the spec's D18); `get_sound_timer()` is `st`; reading either changes nothing. -/
def Obligations.ReadOutsShowThePixelsAndTheSoundTimer : Prop :=
  ∀ s : State, (outputBuffer s).length = 2048 ∧
    (∀ y x, y < 32 → x < 64 →
      (outputBuffer s)[y * 64 + x]? = some (if pixelAt s.fb y x then 0x01 else 0x00)) ∧
    hostReply .getOutputBuffer s = .pixels (outputBuffer s) ∧ hostStep .getOutputBuffer s = s ∧
    hostReply .getSoundTimer s = .sound s.st ∧ hostStep .getSoundTimer s = s

/-- `vblank_trigger()` sets the vblank latch and changes nothing else, in every state: with or without a
pending draw, under either setting of the quirk, held or faulted (the spec's D17, D28). Two calls are one. -/
def Obligations.VblankTriggerSetsItsLatchAlone : Prop :=
  ∀ s : State, (vblankTriggerOp s).vblankReady = true ∧
    vblankTriggerOp s = { s with vblankReady := (vblankTriggerOp s).vblankReady } ∧
    hostStep .vblankTrigger s = vblankTriggerOp s ∧
    vblankTriggerOp (vblankTriggerOp s) = vblankTriggerOp s
end

