-- ==== Sys2Proof/Laws/Decode.lean ====
section
/-! SUPPORT. The encoder's words and the decoder's fields as numbers, the fields of every encoded word, and
every word put together again from its fields. -/
namespace Sys2Proof

/-! ### Words as numbers -/

theorem toNat_encodeA (op : Nibble) (nnn : Addr) :
    (encodeA op nnn).toNat = op.toNat * 4096 + nnn.toNat := by
  unfold encodeA
  rw [BitVec.toNat_append, ← Nat.shiftLeft_add_eq_or_of_lt nnn.isLt, Nat.shiftLeft_eq]

theorem toNat_encodeXI (op x : Nibble) (nn : Byte) :
    (encodeXI op x nn).toNat = op.toNat * 4096 + x.toNat * 256 + nn.toNat := by
  unfold encodeXI
  rw [BitVec.toNat_append, ← Nat.shiftLeft_add_eq_or_of_lt nn.isLt, Nat.shiftLeft_eq,
    BitVec.toNat_append, ← Nat.shiftLeft_add_eq_or_of_lt x.isLt, Nat.shiftLeft_eq]
  omega

theorem toNat_encodeXY (op x y n4 : Nibble) :
    (encodeXY op x y n4).toNat = op.toNat * 4096 + x.toNat * 256 + y.toNat * 16 + n4.toNat := by
  unfold encodeXY
  rw [BitVec.toNat_append, ← Nat.shiftLeft_add_eq_or_of_lt n4.isLt, Nat.shiftLeft_eq,
    BitVec.toNat_append, ← Nat.shiftLeft_add_eq_or_of_lt y.isLt, Nat.shiftLeft_eq,
    BitVec.toNat_append, ← Nat.shiftLeft_add_eq_or_of_lt x.isLt, Nat.shiftLeft_eq]
  omega

theorem toNat_wordOfBytes (hi lo : Byte) : (wordOfBytes hi lo).toNat = hi.toNat * 256 + lo.toNat := by
  unfold wordOfBytes
  rw [BitVec.toNat_append, ← Nat.shiftLeft_add_eq_or_of_lt lo.isLt, Nat.shiftLeft_eq]

theorem toNat_fieldOp (w : Word) : (fieldOp w).toNat = w.toNat / 4096 := by
  unfold fieldOp; simp [Nat.shiftRight_eq_div_pow]; omega

theorem toNat_fieldX (w : Word) : (fieldX w).toNat = w.toNat / 256 % 16 := by
  unfold fieldX; simp [Nat.shiftRight_eq_div_pow]

theorem toNat_fieldY (w : Word) : (fieldY w).toNat = w.toNat / 16 % 16 := by
  unfold fieldY; simp [Nat.shiftRight_eq_div_pow]

theorem toNat_fieldN4 (w : Word) : (fieldN4 w).toNat = w.toNat % 16 := by
  unfold fieldN4; simp

theorem toNat_fieldNn (w : Word) : (fieldNn w).toNat = w.toNat % 256 := by
  unfold fieldNn; simp

theorem toNat_fieldNnn (w : Word) : (fieldNnn w).toNat = w.toNat % 4096 := by
  unfold fieldNnn; simp

theorem toNat_highByte (w : Word) : (highByte w).toNat = w.toNat / 256 := by
  unfold highByte; simp [Nat.shiftRight_eq_div_pow]; omega

theorem toNat_lowByte (w : Word) : (lowByte w).toNat = w.toNat % 256 := by
  unfold lowByte; simp

/-! ### The fields of an encoded word -/

@[simp] theorem fieldOp_encodeA (op : Nibble) (nnn : Addr) : fieldOp (encodeA op nnn) = op := by
  apply BitVec.eq_of_toNat_eq
  rw [toNat_fieldOp, toNat_encodeA]
  omega

@[simp] theorem fieldNnn_encodeA (op : Nibble) (nnn : Addr) : fieldNnn (encodeA op nnn) = nnn := by
  apply BitVec.eq_of_toNat_eq
  rw [toNat_fieldNnn, toNat_encodeA]
  omega

@[simp] theorem fieldOp_encodeXI (op x : Nibble) (nn : Byte) : fieldOp (encodeXI op x nn) = op := by
  apply BitVec.eq_of_toNat_eq
  rw [toNat_fieldOp, toNat_encodeXI]
  omega

@[simp] theorem fieldX_encodeXI (op x : Nibble) (nn : Byte) : fieldX (encodeXI op x nn) = x := by
  apply BitVec.eq_of_toNat_eq
  rw [toNat_fieldX, toNat_encodeXI]
  omega

@[simp] theorem fieldNn_encodeXI (op x : Nibble) (nn : Byte) : fieldNn (encodeXI op x nn) = nn := by
  apply BitVec.eq_of_toNat_eq
  rw [toNat_fieldNn, toNat_encodeXI]
  omega

@[simp] theorem fieldOp_encodeXY (op x y n4 : Nibble) : fieldOp (encodeXY op x y n4) = op := by
  apply BitVec.eq_of_toNat_eq
  rw [toNat_fieldOp, toNat_encodeXY]
  omega

@[simp] theorem fieldX_encodeXY (op x y n4 : Nibble) : fieldX (encodeXY op x y n4) = x := by
  apply BitVec.eq_of_toNat_eq
  rw [toNat_fieldX, toNat_encodeXY]
  omega

@[simp] theorem fieldY_encodeXY (op x y n4 : Nibble) : fieldY (encodeXY op x y n4) = y := by
  apply BitVec.eq_of_toNat_eq
  rw [toNat_fieldY, toNat_encodeXY]
  omega

@[simp] theorem fieldN4_encodeXY (op x y n4 : Nibble) : fieldN4 (encodeXY op x y n4) = n4 := by
  apply BitVec.eq_of_toNat_eq
  rw [toNat_fieldN4, toNat_encodeXY]
  omega

@[simp] theorem fieldX_encodeA (op : Nibble) (nnn : Addr) :
    fieldX (encodeA op nnn) = nnn.extractLsb' 8 4 := by
  apply BitVec.eq_of_toNat_eq
  rw [toNat_fieldX, toNat_encodeA, BitVec.extractLsb'_toNat, Nat.shiftRight_eq_div_pow]
  omega

/-! ### A word is the concatenation of its fields -/

theorem encodeA_fields (w : Word) : encodeA (fieldOp w) (fieldNnn w) = w := by
  apply BitVec.eq_of_toNat_eq
  rw [toNat_encodeA, toNat_fieldOp, toNat_fieldNnn]
  omega

theorem encodeXI_fields (w : Word) : encodeXI (fieldOp w) (fieldX w) (fieldNn w) = w := by
  apply BitVec.eq_of_toNat_eq
  rw [toNat_encodeXI, toNat_fieldOp, toNat_fieldX, toNat_fieldNn]
  omega

theorem encodeXY_fields (w : Word) :
    encodeXY (fieldOp w) (fieldX w) (fieldY w) (fieldN4 w) = w := by
  apply BitVec.eq_of_toNat_eq
  rw [toNat_encodeXY, toNat_fieldOp, toNat_fieldX, toNat_fieldY, toNat_fieldN4]
  omega

theorem fieldX_eq_fieldNnn (w : Word) : fieldX w = (fieldNnn w).extractLsb' 8 4 := by
  rw [← encodeA_fields w, fieldX_encodeA, fieldNnn_encodeA]

@[simp] theorem wordOfBytes_high_low (w : Word) : wordOfBytes (highByte w) (lowByte w) = w := by
  apply BitVec.eq_of_toNat_eq
  rw [toNat_wordOfBytes, toNat_highByte, toNat_lowByte]
  omega

@[simp] theorem highByte_wordOfBytes (hi lo : Byte) : highByte (wordOfBytes hi lo) = hi := by
  apply BitVec.eq_of_toNat_eq
  rw [toNat_highByte, toNat_wordOfBytes]
  omega

@[simp] theorem lowByte_wordOfBytes (hi lo : Byte) : lowByte (wordOfBytes hi lo) = lo := by
  apply BitVec.eq_of_toNat_eq
  rw [toNat_lowByte, toNat_wordOfBytes]
  omega

/-! ### Words under the masks of the opcode map -/

@[simp] theorem nibble_and_allOnes (a : Nibble) : a &&& 0xF#4 = a := BitVec.and_allOnes

theorem append_and_append {n m : Nat} (a c : BitVec n) (b d : BitVec m) :
    (a ++ b) &&& (c ++ d) = (a &&& c) ++ (b &&& d) := BitVec.and_append

theorem encodeA_and (o p : Nibble) (a b : Addr) :
    encodeA o a &&& encodeA p b = encodeA (o &&& p) (a &&& b) := append_and_append o p a b

theorem encodeXI_and (o p x z : Nibble) (a b : Byte) :
    encodeXI o x a &&& encodeXI p z b = encodeXI (o &&& p) (x &&& z) (a &&& b) :=
  (append_and_append (o ++ x) (p ++ z) a b).trans (by rw [append_and_append o p x z]; rfl)

theorem encodeXY_and (o p x z y q n m : Nibble) :
    encodeXY o x y n &&& encodeXY p z q m = encodeXY (o &&& p) (x &&& z) (y &&& q) (n &&& m) :=
  (append_and_append (o ++ x ++ y) (p ++ z ++ q) n m).trans
    (by rw [append_and_append (o ++ x) (p ++ z) y q, append_and_append o p x z]; rfl)

/-- `F000` keeps the family selector. -/
@[simp] theorem encodeA_and_F000 (op : Nibble) (nnn : Addr) :
    encodeA op nnn &&& 0xF000#16 = encodeA op 0 := by
  rw [show (0xF000#16 : Word) = encodeA 0xF 0 by decide, encodeA_and]
  simp

@[simp] theorem encodeXI_and_F000 (op x : Nibble) (nn : Byte) :
    encodeXI op x nn &&& 0xF000#16 = encodeXI op 0 0 := by
  rw [show (0xF000#16 : Word) = encodeXI 0xF 0 0 by decide, encodeXI_and]
  simp

@[simp] theorem encodeXY_and_F000 (op x y n4 : Nibble) :
    encodeXY op x y n4 &&& 0xF000#16 = encodeXY op 0 0 0 := by
  rw [show (0xF000#16 : Word) = encodeXY 0xF 0 0 0 by decide, encodeXY_and]
  simp

/-- `F0FF` keeps the family selector and the bottom byte. -/
@[simp] theorem encodeXI_and_F0FF (op x : Nibble) (nn : Byte) :
    encodeXI op x nn &&& 0xF0FF#16 = encodeXI op 0 nn := by
  rw [show (0xF0FF#16 : Word) = encodeXI 0xF 0 0xFF by decide, encodeXI_and]
  congr 1
  · exact BitVec.and_allOnes
  · simp
  · exact BitVec.and_allOnes

/-- `F00F` keeps the family selector and the tail. -/
@[simp] theorem encodeXY_and_F00F (op x y n4 : Nibble) :
    encodeXY op x y n4 &&& 0xF00F#16 = encodeXY op 0 0 n4 := by
  rw [show (0xF00F#16 : Word) = encodeXY 0xF 0 0 0xF by decide, encodeXY_and]
  congr 1
  · exact BitVec.and_allOnes
  · simp
  · simp
  · exact BitVec.and_allOnes

end Sys2Proof
end

