-- ==== Sys2Proof/Laws/State.lean ====
section
/-! SUPPORT. One lemma per field per named update of State, each true by rfl, and the laws of the register
accessors built on them. -/
namespace Sys2Proof.Machine

/-! ### setReg -/

@[simp] theorem State.setReg_v (s : State) (x : Nibble) (b : Byte) : (s.setReg x b).v = s.v.set x.toNat b x.isLt := rfl
@[simp] theorem State.setReg_pc (s : State) (x : Nibble) (b : Byte) : (s.setReg x b).pc = s.pc := rfl
@[simp] theorem State.setReg_i (s : State) (x : Nibble) (b : Byte) : (s.setReg x b).i = s.i := rfl
@[simp] theorem State.setReg_stack (s : State) (x : Nibble) (b : Byte) : (s.setReg x b).stack = s.stack := rfl
@[simp] theorem State.setReg_sp (s : State) (x : Nibble) (b : Byte) : (s.setReg x b).sp = s.sp := rfl
@[simp] theorem State.setReg_dt (s : State) (x : Nibble) (b : Byte) : (s.setReg x b).dt = s.dt := rfl
@[simp] theorem State.setReg_st (s : State) (x : Nibble) (b : Byte) : (s.setReg x b).st = s.st := rfl
@[simp] theorem State.setReg_keys (s : State) (x : Nibble) (b : Byte) : (s.setReg x b).keys = s.keys := rfl
@[simp] theorem State.setReg_lastEdge (s : State) (x : Nibble) (b : Byte) : (s.setReg x b).lastEdge = s.lastEdge := rfl
@[simp] theorem State.setReg_keyWait (s : State) (x : Nibble) (b : Byte) : (s.setReg x b).keyWait = s.keyWait := rfl
@[simp] theorem State.setReg_mem (s : State) (x : Nibble) (b : Byte) : (s.setReg x b).mem = s.mem := rfl
@[simp] theorem State.setReg_bankSel (s : State) (x : Nibble) (b : Byte) : (s.setReg x b).bankSel = s.bankSel := rfl
@[simp] theorem State.setReg_fb (s : State) (x : Nibble) (b : Byte) : (s.setReg x b).fb = s.fb := rfl
@[simp] theorem State.setReg_dataReady (s : State) (x : Nibble) (b : Byte) : (s.setReg x b).dataReady = s.dataReady := rfl
@[simp] theorem State.setReg_vblankReady (s : State) (x : Nibble) (b : Byte) : (s.setReg x b).vblankReady = s.vblankReady := rfl
@[simp] theorem State.setReg_spX (s : State) (x : Nibble) (b : Byte) : (s.setReg x b).spX = s.spX := rfl
@[simp] theorem State.setReg_spY (s : State) (x : Nibble) (b : Byte) : (s.setReg x b).spY = s.spY := rfl
@[simp] theorem State.setReg_spN (s : State) (x : Nibble) (b : Byte) : (s.setReg x b).spN = s.spN := rfl
@[simp] theorem State.setReg_spBuf (s : State) (x : Nibble) (b : Byte) : (s.setReg x b).spBuf = s.spBuf := rfl
@[simp] theorem State.setReg_cfg (s : State) (x : Nibble) (b : Byte) : (s.setReg x b).cfg = s.cfg := rfl
@[simp] theorem State.setReg_fault (s : State) (x : Nibble) (b : Byte) : (s.setReg x b).fault = s.fault := rfl
@[simp] theorem State.setReg_cycles (s : State) (x : Nibble) (b : Byte) : (s.setReg x b).cycles = s.cycles := rfl
@[simp] theorem State.setReg_randomDraws (s : State) (x : Nibble) (b : Byte) : (s.setReg x b).randomDraws = s.randomDraws := rfl

/-! ### setPc -/

@[simp] theorem State.setPc_v (s : State) (a : Word) : (s.setPc a).v = s.v := rfl
@[simp] theorem State.setPc_pc (s : State) (a : Word) : (s.setPc a).pc = a := rfl
@[simp] theorem State.setPc_i (s : State) (a : Word) : (s.setPc a).i = s.i := rfl
@[simp] theorem State.setPc_stack (s : State) (a : Word) : (s.setPc a).stack = s.stack := rfl
@[simp] theorem State.setPc_sp (s : State) (a : Word) : (s.setPc a).sp = s.sp := rfl
@[simp] theorem State.setPc_dt (s : State) (a : Word) : (s.setPc a).dt = s.dt := rfl
@[simp] theorem State.setPc_st (s : State) (a : Word) : (s.setPc a).st = s.st := rfl
@[simp] theorem State.setPc_keys (s : State) (a : Word) : (s.setPc a).keys = s.keys := rfl
@[simp] theorem State.setPc_lastEdge (s : State) (a : Word) : (s.setPc a).lastEdge = s.lastEdge := rfl
@[simp] theorem State.setPc_keyWait (s : State) (a : Word) : (s.setPc a).keyWait = s.keyWait := rfl
@[simp] theorem State.setPc_mem (s : State) (a : Word) : (s.setPc a).mem = s.mem := rfl
@[simp] theorem State.setPc_bankSel (s : State) (a : Word) : (s.setPc a).bankSel = s.bankSel := rfl
@[simp] theorem State.setPc_fb (s : State) (a : Word) : (s.setPc a).fb = s.fb := rfl
@[simp] theorem State.setPc_dataReady (s : State) (a : Word) : (s.setPc a).dataReady = s.dataReady := rfl
@[simp] theorem State.setPc_vblankReady (s : State) (a : Word) : (s.setPc a).vblankReady = s.vblankReady := rfl
@[simp] theorem State.setPc_spX (s : State) (a : Word) : (s.setPc a).spX = s.spX := rfl
@[simp] theorem State.setPc_spY (s : State) (a : Word) : (s.setPc a).spY = s.spY := rfl
@[simp] theorem State.setPc_spN (s : State) (a : Word) : (s.setPc a).spN = s.spN := rfl
@[simp] theorem State.setPc_spBuf (s : State) (a : Word) : (s.setPc a).spBuf = s.spBuf := rfl
@[simp] theorem State.setPc_cfg (s : State) (a : Word) : (s.setPc a).cfg = s.cfg := rfl
@[simp] theorem State.setPc_fault (s : State) (a : Word) : (s.setPc a).fault = s.fault := rfl
@[simp] theorem State.setPc_cycles (s : State) (a : Word) : (s.setPc a).cycles = s.cycles := rfl
@[simp] theorem State.setPc_randomDraws (s : State) (a : Word) : (s.setPc a).randomDraws = s.randomDraws := rfl

/-! ### setI -/

@[simp] theorem State.setI_v (s : State) (a : Word) : (s.setI a).v = s.v := rfl
@[simp] theorem State.setI_pc (s : State) (a : Word) : (s.setI a).pc = s.pc := rfl
@[simp] theorem State.setI_i (s : State) (a : Word) : (s.setI a).i = a := rfl
@[simp] theorem State.setI_stack (s : State) (a : Word) : (s.setI a).stack = s.stack := rfl
@[simp] theorem State.setI_sp (s : State) (a : Word) : (s.setI a).sp = s.sp := rfl
@[simp] theorem State.setI_dt (s : State) (a : Word) : (s.setI a).dt = s.dt := rfl
@[simp] theorem State.setI_st (s : State) (a : Word) : (s.setI a).st = s.st := rfl
@[simp] theorem State.setI_keys (s : State) (a : Word) : (s.setI a).keys = s.keys := rfl
@[simp] theorem State.setI_lastEdge (s : State) (a : Word) : (s.setI a).lastEdge = s.lastEdge := rfl
@[simp] theorem State.setI_keyWait (s : State) (a : Word) : (s.setI a).keyWait = s.keyWait := rfl
@[simp] theorem State.setI_mem (s : State) (a : Word) : (s.setI a).mem = s.mem := rfl
@[simp] theorem State.setI_bankSel (s : State) (a : Word) : (s.setI a).bankSel = s.bankSel := rfl
@[simp] theorem State.setI_fb (s : State) (a : Word) : (s.setI a).fb = s.fb := rfl
@[simp] theorem State.setI_dataReady (s : State) (a : Word) : (s.setI a).dataReady = s.dataReady := rfl
@[simp] theorem State.setI_vblankReady (s : State) (a : Word) : (s.setI a).vblankReady = s.vblankReady := rfl
@[simp] theorem State.setI_spX (s : State) (a : Word) : (s.setI a).spX = s.spX := rfl
@[simp] theorem State.setI_spY (s : State) (a : Word) : (s.setI a).spY = s.spY := rfl
@[simp] theorem State.setI_spN (s : State) (a : Word) : (s.setI a).spN = s.spN := rfl
@[simp] theorem State.setI_spBuf (s : State) (a : Word) : (s.setI a).spBuf = s.spBuf := rfl
@[simp] theorem State.setI_cfg (s : State) (a : Word) : (s.setI a).cfg = s.cfg := rfl
@[simp] theorem State.setI_fault (s : State) (a : Word) : (s.setI a).fault = s.fault := rfl
@[simp] theorem State.setI_cycles (s : State) (a : Word) : (s.setI a).cycles = s.cycles := rfl
@[simp] theorem State.setI_randomDraws (s : State) (a : Word) : (s.setI a).randomDraws = s.randomDraws := rfl

/-! ### advance -/

@[simp] theorem State.advance_v (s : State) : (s.advance).v = s.v := rfl
@[simp] theorem State.advance_pc (s : State) : (s.advance).pc = s.pc + 2 := rfl
@[simp] theorem State.advance_i (s : State) : (s.advance).i = s.i := rfl
@[simp] theorem State.advance_stack (s : State) : (s.advance).stack = s.stack := rfl
@[simp] theorem State.advance_sp (s : State) : (s.advance).sp = s.sp := rfl
@[simp] theorem State.advance_dt (s : State) : (s.advance).dt = s.dt := rfl
@[simp] theorem State.advance_st (s : State) : (s.advance).st = s.st := rfl
@[simp] theorem State.advance_keys (s : State) : (s.advance).keys = s.keys := rfl
@[simp] theorem State.advance_lastEdge (s : State) : (s.advance).lastEdge = s.lastEdge := rfl
@[simp] theorem State.advance_keyWait (s : State) : (s.advance).keyWait = s.keyWait := rfl
@[simp] theorem State.advance_mem (s : State) : (s.advance).mem = s.mem := rfl
@[simp] theorem State.advance_bankSel (s : State) : (s.advance).bankSel = s.bankSel := rfl
@[simp] theorem State.advance_fb (s : State) : (s.advance).fb = s.fb := rfl
@[simp] theorem State.advance_dataReady (s : State) : (s.advance).dataReady = s.dataReady := rfl
@[simp] theorem State.advance_vblankReady (s : State) : (s.advance).vblankReady = s.vblankReady := rfl
@[simp] theorem State.advance_spX (s : State) : (s.advance).spX = s.spX := rfl
@[simp] theorem State.advance_spY (s : State) : (s.advance).spY = s.spY := rfl
@[simp] theorem State.advance_spN (s : State) : (s.advance).spN = s.spN := rfl
@[simp] theorem State.advance_spBuf (s : State) : (s.advance).spBuf = s.spBuf := rfl
@[simp] theorem State.advance_cfg (s : State) : (s.advance).cfg = s.cfg := rfl
@[simp] theorem State.advance_fault (s : State) : (s.advance).fault = s.fault := rfl
@[simp] theorem State.advance_cycles (s : State) : (s.advance).cycles = s.cycles := rfl
@[simp] theorem State.advance_randomDraws (s : State) : (s.advance).randomDraws = s.randomDraws := rfl

/-! ### latchFault -/

@[simp] theorem State.latchFault_v (s : State) (k : FaultKind) (w : Option Word) : (s.latchFault k w).v = s.v := rfl
@[simp] theorem State.latchFault_pc (s : State) (k : FaultKind) (w : Option Word) : (s.latchFault k w).pc = s.pc := rfl
@[simp] theorem State.latchFault_i (s : State) (k : FaultKind) (w : Option Word) : (s.latchFault k w).i = s.i := rfl
@[simp] theorem State.latchFault_stack (s : State) (k : FaultKind) (w : Option Word) : (s.latchFault k w).stack = s.stack := rfl
@[simp] theorem State.latchFault_sp (s : State) (k : FaultKind) (w : Option Word) : (s.latchFault k w).sp = s.sp := rfl
@[simp] theorem State.latchFault_dt (s : State) (k : FaultKind) (w : Option Word) : (s.latchFault k w).dt = s.dt := rfl
@[simp] theorem State.latchFault_st (s : State) (k : FaultKind) (w : Option Word) : (s.latchFault k w).st = s.st := rfl
@[simp] theorem State.latchFault_keys (s : State) (k : FaultKind) (w : Option Word) : (s.latchFault k w).keys = s.keys := rfl
@[simp] theorem State.latchFault_lastEdge (s : State) (k : FaultKind) (w : Option Word) : (s.latchFault k w).lastEdge = s.lastEdge := rfl
@[simp] theorem State.latchFault_keyWait (s : State) (k : FaultKind) (w : Option Word) : (s.latchFault k w).keyWait = s.keyWait := rfl
@[simp] theorem State.latchFault_mem (s : State) (k : FaultKind) (w : Option Word) : (s.latchFault k w).mem = s.mem := rfl
@[simp] theorem State.latchFault_bankSel (s : State) (k : FaultKind) (w : Option Word) : (s.latchFault k w).bankSel = s.bankSel := rfl
@[simp] theorem State.latchFault_fb (s : State) (k : FaultKind) (w : Option Word) : (s.latchFault k w).fb = s.fb := rfl
@[simp] theorem State.latchFault_dataReady (s : State) (k : FaultKind) (w : Option Word) : (s.latchFault k w).dataReady = s.dataReady := rfl
@[simp] theorem State.latchFault_vblankReady (s : State) (k : FaultKind) (w : Option Word) : (s.latchFault k w).vblankReady = s.vblankReady := rfl
@[simp] theorem State.latchFault_spX (s : State) (k : FaultKind) (w : Option Word) : (s.latchFault k w).spX = s.spX := rfl
@[simp] theorem State.latchFault_spY (s : State) (k : FaultKind) (w : Option Word) : (s.latchFault k w).spY = s.spY := rfl
@[simp] theorem State.latchFault_spN (s : State) (k : FaultKind) (w : Option Word) : (s.latchFault k w).spN = s.spN := rfl
@[simp] theorem State.latchFault_spBuf (s : State) (k : FaultKind) (w : Option Word) : (s.latchFault k w).spBuf = s.spBuf := rfl
@[simp] theorem State.latchFault_cfg (s : State) (k : FaultKind) (w : Option Word) : (s.latchFault k w).cfg = s.cfg := rfl
@[simp] theorem State.latchFault_fault (s : State) (k : FaultKind) (w : Option Word) : (s.latchFault k w).fault = some ⟨k, s.pc, w⟩ := rfl
@[simp] theorem State.latchFault_cycles (s : State) (k : FaultKind) (w : Option Word) : (s.latchFault k w).cycles = s.cycles := rfl
@[simp] theorem State.latchFault_randomDraws (s : State) (k : FaultKind) (w : Option Word) : (s.latchFault k w).randomDraws = s.randomDraws := rfl

/-! ### skipIf, writeFlag, autoIncrement: every field but the one they write -/

@[simp] theorem State.skipIf_v (s : State) (c : Bool) : (s.skipIf c).v = s.v := by
  cases c <;> rfl
@[simp] theorem State.skipIf_i (s : State) (c : Bool) : (s.skipIf c).i = s.i := by
  cases c <;> rfl
@[simp] theorem State.skipIf_stack (s : State) (c : Bool) : (s.skipIf c).stack = s.stack := by
  cases c <;> rfl
@[simp] theorem State.skipIf_sp (s : State) (c : Bool) : (s.skipIf c).sp = s.sp := by
  cases c <;> rfl
@[simp] theorem State.skipIf_dt (s : State) (c : Bool) : (s.skipIf c).dt = s.dt := by
  cases c <;> rfl
@[simp] theorem State.skipIf_st (s : State) (c : Bool) : (s.skipIf c).st = s.st := by
  cases c <;> rfl
@[simp] theorem State.skipIf_keys (s : State) (c : Bool) : (s.skipIf c).keys = s.keys := by
  cases c <;> rfl
@[simp] theorem State.skipIf_lastEdge (s : State) (c : Bool) : (s.skipIf c).lastEdge = s.lastEdge := by
  cases c <;> rfl
@[simp] theorem State.skipIf_keyWait (s : State) (c : Bool) : (s.skipIf c).keyWait = s.keyWait := by
  cases c <;> rfl
@[simp] theorem State.skipIf_mem (s : State) (c : Bool) : (s.skipIf c).mem = s.mem := by
  cases c <;> rfl
@[simp] theorem State.skipIf_bankSel (s : State) (c : Bool) : (s.skipIf c).bankSel = s.bankSel := by
  cases c <;> rfl
@[simp] theorem State.skipIf_fb (s : State) (c : Bool) : (s.skipIf c).fb = s.fb := by
  cases c <;> rfl
@[simp] theorem State.skipIf_dataReady (s : State) (c : Bool) : (s.skipIf c).dataReady = s.dataReady := by
  cases c <;> rfl
@[simp] theorem State.skipIf_vblankReady (s : State) (c : Bool) : (s.skipIf c).vblankReady = s.vblankReady := by
  cases c <;> rfl
@[simp] theorem State.skipIf_spX (s : State) (c : Bool) : (s.skipIf c).spX = s.spX := by
  cases c <;> rfl
@[simp] theorem State.skipIf_spY (s : State) (c : Bool) : (s.skipIf c).spY = s.spY := by
  cases c <;> rfl
@[simp] theorem State.skipIf_spN (s : State) (c : Bool) : (s.skipIf c).spN = s.spN := by
  cases c <;> rfl
@[simp] theorem State.skipIf_spBuf (s : State) (c : Bool) : (s.skipIf c).spBuf = s.spBuf := by
  cases c <;> rfl
@[simp] theorem State.skipIf_cfg (s : State) (c : Bool) : (s.skipIf c).cfg = s.cfg := by
  cases c <;> rfl
@[simp] theorem State.skipIf_fault (s : State) (c : Bool) : (s.skipIf c).fault = s.fault := by
  cases c <;> rfl
@[simp] theorem State.skipIf_cycles (s : State) (c : Bool) : (s.skipIf c).cycles = s.cycles := by
  cases c <;> rfl
@[simp] theorem State.skipIf_randomDraws (s : State) (c : Bool) : (s.skipIf c).randomDraws = s.randomDraws := by
  cases c <;> rfl

@[simp] theorem State.writeFlag_pc (s : State) (f : Option Bool) : (s.writeFlag f).pc = s.pc := by
  cases f <;> rfl
@[simp] theorem State.writeFlag_i (s : State) (f : Option Bool) : (s.writeFlag f).i = s.i := by
  cases f <;> rfl
@[simp] theorem State.writeFlag_stack (s : State) (f : Option Bool) : (s.writeFlag f).stack = s.stack := by
  cases f <;> rfl
@[simp] theorem State.writeFlag_sp (s : State) (f : Option Bool) : (s.writeFlag f).sp = s.sp := by
  cases f <;> rfl
@[simp] theorem State.writeFlag_dt (s : State) (f : Option Bool) : (s.writeFlag f).dt = s.dt := by
  cases f <;> rfl
@[simp] theorem State.writeFlag_st (s : State) (f : Option Bool) : (s.writeFlag f).st = s.st := by
  cases f <;> rfl
@[simp] theorem State.writeFlag_keys (s : State) (f : Option Bool) : (s.writeFlag f).keys = s.keys := by
  cases f <;> rfl
@[simp] theorem State.writeFlag_lastEdge (s : State) (f : Option Bool) : (s.writeFlag f).lastEdge = s.lastEdge := by
  cases f <;> rfl
@[simp] theorem State.writeFlag_keyWait (s : State) (f : Option Bool) : (s.writeFlag f).keyWait = s.keyWait := by
  cases f <;> rfl
@[simp] theorem State.writeFlag_mem (s : State) (f : Option Bool) : (s.writeFlag f).mem = s.mem := by
  cases f <;> rfl
@[simp] theorem State.writeFlag_bankSel (s : State) (f : Option Bool) : (s.writeFlag f).bankSel = s.bankSel := by
  cases f <;> rfl
@[simp] theorem State.writeFlag_fb (s : State) (f : Option Bool) : (s.writeFlag f).fb = s.fb := by
  cases f <;> rfl
@[simp] theorem State.writeFlag_dataReady (s : State) (f : Option Bool) : (s.writeFlag f).dataReady = s.dataReady := by
  cases f <;> rfl
@[simp] theorem State.writeFlag_vblankReady (s : State) (f : Option Bool) : (s.writeFlag f).vblankReady = s.vblankReady := by
  cases f <;> rfl
@[simp] theorem State.writeFlag_spX (s : State) (f : Option Bool) : (s.writeFlag f).spX = s.spX := by
  cases f <;> rfl
@[simp] theorem State.writeFlag_spY (s : State) (f : Option Bool) : (s.writeFlag f).spY = s.spY := by
  cases f <;> rfl
@[simp] theorem State.writeFlag_spN (s : State) (f : Option Bool) : (s.writeFlag f).spN = s.spN := by
  cases f <;> rfl
@[simp] theorem State.writeFlag_spBuf (s : State) (f : Option Bool) : (s.writeFlag f).spBuf = s.spBuf := by
  cases f <;> rfl
@[simp] theorem State.writeFlag_cfg (s : State) (f : Option Bool) : (s.writeFlag f).cfg = s.cfg := by
  cases f <;> rfl
@[simp] theorem State.writeFlag_fault (s : State) (f : Option Bool) : (s.writeFlag f).fault = s.fault := by
  cases f <;> rfl
@[simp] theorem State.writeFlag_cycles (s : State) (f : Option Bool) : (s.writeFlag f).cycles = s.cycles := by
  cases f <;> rfl
@[simp] theorem State.writeFlag_randomDraws (s : State) (f : Option Bool) : (s.writeFlag f).randomDraws = s.randomDraws := by
  cases f <;> rfl

@[simp] theorem autoIncrement_v (s : State) (x : Nibble) : (autoIncrement s x).v = s.v := by
  unfold autoIncrement; split <;> rfl
@[simp] theorem autoIncrement_pc (s : State) (x : Nibble) : (autoIncrement s x).pc = s.pc := by
  unfold autoIncrement; split <;> rfl
@[simp] theorem autoIncrement_stack (s : State) (x : Nibble) : (autoIncrement s x).stack = s.stack := by
  unfold autoIncrement; split <;> rfl
@[simp] theorem autoIncrement_sp (s : State) (x : Nibble) : (autoIncrement s x).sp = s.sp := by
  unfold autoIncrement; split <;> rfl
@[simp] theorem autoIncrement_dt (s : State) (x : Nibble) : (autoIncrement s x).dt = s.dt := by
  unfold autoIncrement; split <;> rfl
@[simp] theorem autoIncrement_st (s : State) (x : Nibble) : (autoIncrement s x).st = s.st := by
  unfold autoIncrement; split <;> rfl
@[simp] theorem autoIncrement_keys (s : State) (x : Nibble) : (autoIncrement s x).keys = s.keys := by
  unfold autoIncrement; split <;> rfl
@[simp] theorem autoIncrement_lastEdge (s : State) (x : Nibble) : (autoIncrement s x).lastEdge = s.lastEdge := by
  unfold autoIncrement; split <;> rfl
@[simp] theorem autoIncrement_keyWait (s : State) (x : Nibble) : (autoIncrement s x).keyWait = s.keyWait := by
  unfold autoIncrement; split <;> rfl
@[simp] theorem autoIncrement_mem (s : State) (x : Nibble) : (autoIncrement s x).mem = s.mem := by
  unfold autoIncrement; split <;> rfl
@[simp] theorem autoIncrement_bankSel (s : State) (x : Nibble) : (autoIncrement s x).bankSel = s.bankSel := by
  unfold autoIncrement; split <;> rfl
@[simp] theorem autoIncrement_fb (s : State) (x : Nibble) : (autoIncrement s x).fb = s.fb := by
  unfold autoIncrement; split <;> rfl
@[simp] theorem autoIncrement_dataReady (s : State) (x : Nibble) : (autoIncrement s x).dataReady = s.dataReady := by
  unfold autoIncrement; split <;> rfl
@[simp] theorem autoIncrement_vblankReady (s : State) (x : Nibble) : (autoIncrement s x).vblankReady = s.vblankReady := by
  unfold autoIncrement; split <;> rfl
@[simp] theorem autoIncrement_spX (s : State) (x : Nibble) : (autoIncrement s x).spX = s.spX := by
  unfold autoIncrement; split <;> rfl
@[simp] theorem autoIncrement_spY (s : State) (x : Nibble) : (autoIncrement s x).spY = s.spY := by
  unfold autoIncrement; split <;> rfl
@[simp] theorem autoIncrement_spN (s : State) (x : Nibble) : (autoIncrement s x).spN = s.spN := by
  unfold autoIncrement; split <;> rfl
@[simp] theorem autoIncrement_spBuf (s : State) (x : Nibble) : (autoIncrement s x).spBuf = s.spBuf := by
  unfold autoIncrement; split <;> rfl
@[simp] theorem autoIncrement_cfg (s : State) (x : Nibble) : (autoIncrement s x).cfg = s.cfg := by
  unfold autoIncrement; split <;> rfl
@[simp] theorem autoIncrement_fault (s : State) (x : Nibble) : (autoIncrement s x).fault = s.fault := by
  unfold autoIncrement; split <;> rfl
@[simp] theorem autoIncrement_cycles (s : State) (x : Nibble) : (autoIncrement s x).cycles = s.cycles := by
  unfold autoIncrement; split <;> rfl
@[simp] theorem autoIncrement_randomDraws (s : State) (x : Nibble) : (autoIncrement s x).randomDraws = s.randomDraws := by
  unfold autoIncrement; split <;> rfl

theorem autoIncrement_i (s : State) (x : Nibble) :
    (autoIncrement s x).i = if s.cfg.qIndexInc then s.i + x.setWidth 16 + 1 else s.i := by
  unfold autoIncrement; split <;> rfl

/-! ### Registers -/

/-- A register accessor depends on the register file alone. -/
theorem State.reg_congr {s t : State} (h : t.v = s.v) (x : Nibble) : t.reg x = s.reg x := by
  simp only [State.reg, h]

theorem State.reg_setReg (s : State) (x z : Nibble) (b : Byte) :
    (s.setReg x b).reg z = if z = x then b else s.reg z := by
  simp only [State.reg, State.setReg_v, Vector.getElem_set]
  by_cases h : z = x
  · simp [h]
  · have : ¬ x.toNat = z.toNat := fun e => h (BitVec.eq_of_toNat_eq e.symm)
    simp [h, this]

@[simp] theorem State.reg_setReg_self (s : State) (x : Nibble) (b : Byte) :
    (s.setReg x b).reg x = b := by simp [State.reg_setReg]

theorem State.reg_setReg_of_ne (s : State) {x z : Nibble} (b : Byte) (h : z ≠ x) :
    (s.setReg x b).reg z = s.reg z := by simp [State.reg_setReg, h]

@[simp] theorem State.reg_advance (s : State) (z : Nibble) : s.advance.reg z = s.reg z := rfl

@[simp] theorem State.reg_setPc (s : State) (a : Word) (z : Nibble) : (s.setPc a).reg z = s.reg z := rfl

@[simp] theorem State.reg_setI (s : State) (a : Word) (z : Nibble) : (s.setI a).reg z = s.reg z := rfl

@[simp] theorem State.reg_skipIf (s : State) (c : Bool) (z : Nibble) :
    (s.skipIf c).reg z = s.reg z := State.reg_congr (by simp) z

@[simp] theorem State.reg_autoIncrement (s : State) (x z : Nibble) :
    (autoIncrement s x).reg z = s.reg z := State.reg_congr (by simp) z

theorem State.skipIf_pc (s : State) (c : Bool) :
    (s.skipIf c).pc = if c then s.pc + 2 else s.pc := by cases c <;> rfl

theorem State.reg_writeFlag (s : State) (f : Option Bool) (z : Nibble) :
    (s.writeFlag f).reg z =
      match f with
      | none => s.reg z
      | some b => if z = regVF then flagByte b else s.reg z := by
  cases f with
  | none => rfl
  | some b => exact State.reg_setReg s regVF z (flagByte b)

@[simp] theorem State.aluWriteBack_none (s : State) (x : Nibble) (r : Byte) :
    s.aluWriteBack x r none = s.setReg x r := rfl

@[simp] theorem State.aluWriteBack_some (s : State) (x : Nibble) (r : Byte) (b : Bool) :
    s.aluWriteBack x r (some b) = (s.setReg x r).setReg regVF (flagByte b) := rfl

end Sys2Proof.Machine
end

