-- ==== Sys2Proof/Laws/Display.lean ====
section
/-! SUPPORT. What the blitter does to a frame, pixel by pixel: each of its loops toggles exactly the
pixels its set bits fall on, and collides iff one of those was on. -/
namespace Sys2Proof.Machine

theorem pixelAt_togglePixel (fb : Frame) {y x : Nat} (hy : y < 32) (hx : x < 64) (y' x' : Nat) :
    pixelAt (togglePixel fb y x) y' x' =
      if y' = y ∧ x' = x then !pixelAt fb y x else pixelAt fb y' x' := by
  unfold togglePixel
  rw [dif_pos ⟨hy, hx⟩]
  unfold pixelAt
  by_cases h' : y' < 32 ∧ x' < 64
  · rw [dif_pos h', dif_pos h', dif_pos ⟨hy, hx⟩]
    by_cases hyy : y' = y
    · subst hyy
      by_cases hxx : x' = x
      · subst hxx; simp
      · have : ¬ x = x' := fun e => hxx e.symm
        simp [this, hxx]
    · have : ¬ y = y' := fun e => hyy e.symm
      simp [this, hyy]
  · rw [dif_neg h', dif_neg h', if_neg (fun e => h' (by rw [e.1, e.2]; exact ⟨hy, hx⟩))]

theorem pixelAt_blankFrame (y x : Nat) : pixelAt blankFrame y x = false := by
  unfold pixelAt blankFrame; split <;> simp

/-- The canvas `c'` is `c` with exactly the pixels of `P` toggled, the collision flag raised iff one of
them was on. -/
structure Drawn (c c' : Canvas) (P : Nat → Nat → Prop) : Prop where
  pixel : ∀ y x, y < 32 → x < 64 → (pixelAt c'.1 y x = true ↔ ¬ (pixelAt c.1 y x = true ↔ P y x))
  collision : c'.2 = true ↔
    c.2 = true ∨ ∃ y x, y < 32 ∧ x < 64 ∧ pixelAt c.1 y x = true ∧ P y x

theorem Drawn.refl (c : Canvas) : Drawn c c fun _ _ => False :=
  ⟨fun y x _ _ => by simp, by simp⟩

theorem Drawn.congr {c c' : Canvas} {P Q : Nat → Nat → Prop} (h : Drawn c c' P)
    (hPQ : ∀ y x, y < 32 → x < 64 → (P y x ↔ Q y x)) : Drawn c c' Q := by
  refine ⟨fun y x hy hx => by rw [h.pixel y x hy hx, hPQ y x hy hx], h.collision.trans ?_⟩
  refine or_congr_right ⟨?_, ?_⟩
  · rintro ⟨y, x, hy, hx, hp, hq⟩; exact ⟨y, x, hy, hx, hp, (hPQ y x hy hx).mp hq⟩
  · rintro ⟨y, x, hy, hx, hp, hq⟩; exact ⟨y, x, hy, hx, hp, (hPQ y x hy hx).mpr hq⟩

/-- Drawing one set of pixels and then another that shares none with it draws their union. -/
theorem Drawn.trans {c c' c'' : Canvas} {P Q : Nat → Nat → Prop} (h : Drawn c c' P)
    (h' : Drawn c' c'' Q) (hd : ∀ y x, y < 32 → x < 64 → P y x → ¬ Q y x) :
    Drawn c c'' fun y x => P y x ∨ Q y x := by
  constructor
  · intro y x hy hx
    have h1 := h.pixel y x hy hx
    have h2 := h'.pixel y x hy hx
    have h3 := hd y x hy hx
    tauto
  · rw [h'.collision, h.collision]
    constructor
    · rintro ((h1 | ⟨y, x, hy, hx, hp, hq⟩) | ⟨y, x, hy, hx, hp, hq⟩)
      · exact .inl h1
      · exact .inr ⟨y, x, hy, hx, hp, .inl hq⟩
      · have h1 := h.pixel y x hy hx
        have h3 := hd y x hy hx
        exact .inr ⟨y, x, hy, hx, by tauto, .inr hq⟩
    · rintro (h1 | ⟨y, x, hy, hx, hp, hq | hq⟩)
      · exact .inl (.inl h1)
      · exact .inl (.inr ⟨y, x, hy, hx, hp, hq⟩)
      · have h1 := h.pixel y x hy hx
        have h3 := hd y x hy hx
        exact .inr ⟨y, x, hy, hx, by tauto, hq⟩

theorem drawn_plot (c : Canvas) {y x : Nat} (hy : y < 32) (hx : x < 64) (bit : Bool) :
    Drawn c (plot c y x bit) fun y' x' => bit = true ∧ y' = y ∧ x' = x := by
  cases bit with
  | false => exact (Drawn.refl c).congr (by simp)
  | true =>
    constructor
    · intro y' x' _ _
      simp only [plot, if_true, pixelAt_togglePixel c.1 hy hx]
      by_cases h : y' = y ∧ x' = x
      · obtain ⟨rfl, rfl⟩ := h; simp
      · simp [h]
    · simp only [plot, if_true, Bool.or_eq_true]
      refine or_congr_right ⟨fun h => ⟨y, x, hy, hx, h, by simp, rfl, rfl⟩, ?_⟩
      rintro ⟨y', x', -, -, h, -, rfl, rfl⟩
      exact h

/-- A clipped row: the set bits at columns that are on the screen. -/
theorem drawn_clipRow (byte : Byte) {py : Nat} (hy : py < 32) (x0 : Nat) (bs : List Nat)
    (hs : bs.Pairwise (· < ·)) (c : Canvas) :
    Drawn c (clipRow byte py x0 bs c) fun y x =>
      ∃ b ∈ bs, spriteBit byte b = true ∧ y = py ∧ x = x0 + b := by
  induction bs generalizing c with
  | nil => exact (Drawn.refl c).congr (by simp)
  | cons b bs ih =>
    obtain ⟨hb, hbs⟩ := List.pairwise_cons.mp hs
    simp only [clipRow]
    split
    · next h =>
      have h : 64 ≤ x0 + b := h
      refine (Drawn.refl c).congr fun y x _ hx => ⟨False.elim, ?_⟩
      rintro ⟨b', hb', -, -, rfl⟩
      rcases List.mem_cons.mp hb' with rfl | hm
      · omega
      · have := hb b' hm; omega
    · next h =>
      have h : x0 + b < 64 := Nat.lt_of_not_le h
      refine ((drawn_plot c hy h (spriteBit byte b)).trans (ih hbs _) ?_).congr ?_
      · rintro y x - - ⟨-, rfl, rfl⟩ ⟨b', hb', -, -, he⟩
        have := hb b' hb'; omega
      · intro y x _ _
        simp only [List.mem_cons, exists_eq_or_imp]

/-- A clipped sprite: the clipped rows that are on the screen. -/
theorem drawn_clipRows (s : State) (x0 y0 : Nat) (rs : List Nat) (hs : rs.Pairwise (· < ·))
    (c : Canvas) :
    Drawn c (clipRows s x0 y0 rs c) fun y x =>
      ∃ r ∈ rs, ∃ b < 8, spriteBit (s.spriteByte r) b = true ∧ y = y0 + r ∧ x = x0 + b := by
  induction rs generalizing c with
  | nil => exact (Drawn.refl c).congr (by simp)
  | cons r rs ih =>
    obtain ⟨hr, hrs⟩ := List.pairwise_cons.mp hs
    simp only [clipRows]
    split
    · next h =>
      have h : 32 ≤ y0 + r := h
      refine (Drawn.refl c).congr fun y x hy _ => ⟨False.elim, ?_⟩
      rintro ⟨r', hr', b, -, -, rfl, -⟩
      rcases List.mem_cons.mp hr' with rfl | hm
      · omega
      · have := hr r' hm; omega
    · next h =>
      have h : y0 + r < 32 := Nat.lt_of_not_le h
      have hrow := drawn_clipRow (s.spriteByte r) h x0 (List.range 8) List.pairwise_lt_range c
      refine (hrow.trans (ih hrs _) ?_).congr ?_
      · rintro y x - - ⟨b, -, -, rfl, -⟩ ⟨r', hr', b', -, -, he, -⟩
        have := hr r' hr'; omega
      · intro y x _ _
        simp only [List.mem_cons, exists_eq_or_imp, List.mem_range]

/-- A wrapped row: every set bit, its column reduced. -/
theorem drawn_wrapRow (byte : Byte) {py : Nat} (hy : py < 32) (x0 : Nat) (bs : List Nat)
    (hs : bs.Pairwise (· < ·)) (h8 : ∀ b ∈ bs, b < 8) (c : Canvas) :
    Drawn c (wrapRow byte py x0 bs c) fun y x =>
      ∃ b ∈ bs, spriteBit byte b = true ∧ y = py ∧ x = (x0 + b) % 64 := by
  induction bs generalizing c with
  | nil => exact (Drawn.refl c).congr (by simp)
  | cons b bs ih =>
    obtain ⟨hb, hbs⟩ := List.pairwise_cons.mp hs
    have hb8 := h8 b (List.mem_cons_self ..)
    have hbs8 : ∀ b' ∈ bs, b' < 8 := fun b' hm => h8 b' (List.mem_cons_of_mem _ hm)
    simp only [wrapRow]
    refine ((drawn_plot c hy (Nat.mod_lt _ (by decide)) (spriteBit byte b)).trans
      (ih hbs hbs8 _) ?_).congr ?_
    · rintro y x - - ⟨-, rfl, rfl⟩ ⟨b', hb', -, -, he⟩
      have := hb b' hb'
      have := hbs8 b' hb'
      have he : (x0 + b) % 64 = (x0 + b') % 64 := he
      omega
    · intro y x _ _
      simp only [List.mem_cons, exists_eq_or_imp]

/-- A wrapped sprite: every row, reduced. -/
theorem drawn_wrapRows (s : State) (x0 y0 : Nat) (rs : List Nat) (hs : rs.Pairwise (· < ·))
    (h32 : ∀ r ∈ rs, r < 32) (c : Canvas) :
    Drawn c (wrapRows s x0 y0 rs c) fun y x =>
      ∃ r ∈ rs, ∃ b < 8, spriteBit (s.spriteByte r) b = true ∧ y = (y0 + r) % 32 ∧
        x = (x0 + b) % 64 := by
  induction rs generalizing c with
  | nil => exact (Drawn.refl c).congr (by simp)
  | cons r rs ih =>
    obtain ⟨hr, hrs⟩ := List.pairwise_cons.mp hs
    have hr32 := h32 r (List.mem_cons_self ..)
    have hrs32 : ∀ r' ∈ rs, r' < 32 := fun r' hm => h32 r' (List.mem_cons_of_mem _ hm)
    simp only [wrapRows]
    have hrow := drawn_wrapRow (s.spriteByte r) (py := (y0 + r) % 32) (Nat.mod_lt _ (by decide)) x0
      (List.range 8) List.pairwise_lt_range (fun b hb => List.mem_range.mp hb) c
    refine (hrow.trans (ih hrs hrs32 _) ?_).congr ?_
    · rintro y x - - ⟨b, -, -, rfl, -⟩ ⟨r', hr', b', -, -, he, -⟩
      have := hr r' hr'
      have := hrs32 r' hr'
      omega
    · intro y x _ _
      simp only [List.mem_cons, exists_eq_or_imp, List.mem_range]

/-- `render()`, said once for both geometries: the pixels it toggles and its collision flag. -/
theorem drawn_render (s : State) :
    Drawn (s.fb, false) (render s) fun y x =>
      ∃ r < s.spN.toNat, ∃ b < 8, spriteBit (s.spriteByte r) b = true ∧
        if s.cfg.qClip then y = s.spY.toNat % 32 + r ∧ x = s.spX.toNat % 64 + b
        else y = (s.spY.toNat + r) % 32 ∧ x = (s.spX.toNat + b) % 64 := by
  unfold render
  by_cases hq : s.cfg.qClip = true
  · rw [if_pos hq]
    refine (drawn_clipRows s _ _ _ List.pairwise_lt_range _).congr fun y x _ _ => ?_
    simp only [List.mem_range, hq, if_true]
  · rw [if_neg hq]
    refine (drawn_wrapRows s _ _ _ List.pairwise_lt_range (fun r hr => ?_) _).congr fun y x _ _ => ?_
    · have := List.mem_range.mp hr
      have := s.spN.isLt
      omega
    · simp only [List.mem_range, hq, if_false, Bool.false_eq_true]

end Sys2Proof.Machine
end

