-- ==== Sys2Proof/Laws/Memory.lean ====
section
/-! SUPPORT. The laws of memory: reading after writing, the canonical form kept by every operation, and
equality of canonical memories that read alike. -/
namespace Sys2Proof.Machine

/-! ### Lists of cells -/

theorem cellsWf_mono {lo lo' : Nat} {cs : List Host.Cell} (h : lo' ≤ lo) (hw : cellsWf lo cs = true) :
    cellsWf lo' cs = true := by
  cases cs with
  | nil => rfl
  | cons c rest =>
    simp only [cellsWf, Bool.and_eq_true, decide_eq_true_eq] at hw ⊢
    exact ⟨⟨⟨by omega, hw.1.1.2⟩, hw.1.2⟩, hw.2⟩

theorem cellsFind_eq_none_of_lt {lo a : Nat} {cs : List Host.Cell} (hw : cellsWf lo cs = true)
    (h : a < lo) : cellsFind cs a = none := by
  induction cs generalizing lo with
  | nil => rfl
  | cons c rest ih =>
    simp only [cellsWf, Bool.and_eq_true, decide_eq_true_eq] at hw
    have : ¬ a = c.1 := by omega
    simp only [cellsFind, this, if_false]
    exact ih hw.2 (by omega)

/-- What `cellsPut` does to a lookup: the address written answers what was put, every other address
answers as before. -/
theorem cellsFind_cellsPut {lo a : Nat} {cs : List Host.Cell} (v : Option Byte) (b : Nat)
    (hw : cellsWf lo cs = true) :
    cellsFind (cellsPut cs a v) b = if b = a then v else cellsFind cs b := by
  induction cs generalizing lo with
  | nil => cases v <;> simp [cellsPut, cellsFind]
  | cons c rest ih =>
    obtain ⟨k, e⟩ := c
    have hwc := hw
    simp only [cellsWf, Bool.and_eq_true, decide_eq_true_eq] at hwc
    have hrest := hwc.2
    simp only [cellsPut]
    split
    · next hka =>
      simp only [cellsFind, ih hrest]
      by_cases hbk : b = k
      · have : ¬ b = a := by omega
        simp [hbk]; omega
      · simp [hbk]
    · next hka =>
      have hnone : a < k → cellsFind rest a = none := fun h =>
        cellsFind_eq_none_of_lt hrest (by omega)
      have hself : cellsFind rest k = none := cellsFind_eq_none_of_lt hrest (by omega)
      by_cases hak : a = k
      · subst hak
        cases v with
        | none =>
          by_cases hba : b = a
          · subst hba; simp [hself]
          · simp [cellsFind, hba]
        | some w => by_cases hba : b = a <;> simp [cellsFind, hba]
      · have hlt : a < k := by omega
        cases v with
        | none =>
          by_cases hba : b = a
          · subst hba
            simp [hak, cellsFind, hnone hlt]
          · simp [hak, hba]
        | some w => by_cases hba : b = a <;> simp [cellsFind, hba, hak]

/-- `cellsPut` keeps the canonical form, given an address inside the bank and a byte unlike what an
unlisted address reads as. -/
theorem cellsWf_cellsPut {lo a : Nat} {cs : List Host.Cell} {v : Option Byte}
    (hw : cellsWf lo cs = true) (hlo : lo ≤ a) (ha : a < Config.memSize)
    (hv : ∀ b, v = some b → b ≠ Memory.unlisted) : cellsWf lo (cellsPut cs a v) = true := by
  induction cs generalizing lo with
  | nil =>
    cases v with
    | none => rfl
    | some b =>
      have hb := hv b rfl
      simp only [cellsPut, cellsWf, Bool.and_eq_true, decide_eq_true_eq]
      exact ⟨⟨⟨hlo, ha⟩, hb⟩, trivial⟩
  | cons c rest ih =>
    obtain ⟨k, e⟩ := c
    have hwc := hw
    simp only [cellsWf, Bool.and_eq_true, decide_eq_true_eq] at hwc
    obtain ⟨⟨⟨h1, h2⟩, h3⟩, h4⟩ := hwc
    simp only [cellsPut]
    split
    · next hka =>
      simp only [cellsWf, Bool.and_eq_true, decide_eq_true_eq]
      exact ⟨⟨⟨h1, h2⟩, h3⟩, ih h4 (by omega)⟩
    · next hka =>
      have htail : cellsWf (a + 1) (if a = k then rest else (k, e) :: rest) = true := by
        split
        · next hak => exact hak ▸ h4
        · next hak =>
          simp only [cellsWf, Bool.and_eq_true, decide_eq_true_eq]
          exact ⟨⟨⟨by omega, h2⟩, h3⟩, h4⟩
      cases v with
      | none => exact cellsWf_mono (by omega) htail
      | some b =>
        have hb := hv b rfl
        simp only [cellsWf, Bool.and_eq_true, decide_eq_true_eq]
        exact ⟨⟨⟨hlo, ha⟩, hb⟩, htail⟩

/-- A listed byte lies inside the bank and is not what an unlisted address reads as. -/
theorem cellsFind_ne_unlisted {lo a : Nat} {cs : List Host.Cell} {b : Byte}
    (hw : cellsWf lo cs = true) (h : cellsFind cs a = some b) :
    b ≠ Memory.unlisted ∧ lo ≤ a ∧ a < Config.memSize := by
  induction cs generalizing lo with
  | nil => simp [cellsFind] at h
  | cons c rest ih =>
    obtain ⟨k, e⟩ := c
    simp only [cellsWf, Bool.and_eq_true, decide_eq_true_eq] at hw
    obtain ⟨⟨⟨h1, h2⟩, h3⟩, h4⟩ := hw
    simp only [cellsFind] at h
    split at h
    · next hak =>
      cases h; subst hak
      exact ⟨h3, h1, h2⟩
    · obtain ⟨p, q, r⟩ := ih h4 h
      exact ⟨p, by omega, r⟩

/-- Canonical lists with the same lookups are the same list. -/
theorem cells_ext {lo : Nat} {cs ds : List Host.Cell} (hc : cellsWf lo cs = true)
    (hd : cellsWf lo ds = true) (h : ∀ a, cellsFind cs a = cellsFind ds a) : cs = ds := by
  induction cs generalizing lo ds with
  | nil =>
    cases ds with
    | nil => rfl
    | cons d rest => have := h d.1; simp [cellsFind] at this
  | cons c rest ih =>
    obtain ⟨k, e⟩ := c
    cases ds with
    | nil => have := h k; simp [cellsFind] at this
    | cons d rest' =>
      obtain ⟨k', e'⟩ := d
      have hc0 := hc
      have hd0 := hd
      simp only [cellsWf, Bool.and_eq_true, decide_eq_true_eq] at hc0 hd0
      have hk := h k
      have hk' := h k'
      simp only [cellsFind, if_true] at hk hk'
      have hkk : k = k' := by
        by_contra hne
        rcases Nat.lt_or_ge k k' with hlt | hge
        · have : ¬ k = k' := hne
          simp only [this, if_false] at hk
          rw [cellsFind_eq_none_of_lt hd0.2 (by omega)] at hk
          cases hk
        · have : ¬ k' = k := fun x => hne x.symm
          simp only [this, if_false] at hk'
          rw [cellsFind_eq_none_of_lt hc0.2 (by omega)] at hk'
          cases hk'
      subst hkk
      simp only [if_true, Option.some.injEq] at hk
      subst hk
      have hrest : rest = rest' := by
        refine ih hc0.2 hd0.2 fun a => ?_
        by_cases hak : a = k
        · subst hak
          rw [cellsFind_eq_none_of_lt hc0.2 (by omega), cellsFind_eq_none_of_lt hd0.2 (by omega)]
        · have := h a
          simpa only [cellsFind, hak, if_false] using this
      rw [hrest]

/-! ### Memories -/

theorem Memory.get_set {m : Memory} (hw : m.wf = true) (a : Nat) (v : Byte) (b : Nat) :
    (m.set a v).get b = if b = a then v else m.get b := by
  simp only [Memory.get, Memory.set, cellsFind_cellsPut _ _ hw]
  by_cases hba : b = a
  · subst hba
    by_cases hv : v = Memory.unlisted <;> simp [hv]
  · simp [hba]

theorem Memory.wf_set {m : Memory} (hw : m.wf = true) {a : Nat} (ha : a < Config.memSize) (v : Byte) :
    (m.set a v).wf = true := by
  refine cellsWf_cellsPut hw (Nat.zero_le a) ha fun b hb => ?_
  split at hb
  · cases hb
  · next h => cases hb; exact h

/-- What a block write does to a read, on a canonical memory and a block inside the bank. -/
theorem Memory.get_writeBytes {m : Memory} (hw : m.wf = true) {a : Nat} {bs : List Byte}
    (ha : a + bs.length ≤ Config.memSize) (b : Nat) :
    (m.writeBytes a bs).get b =
      if a ≤ b ∧ b < a + bs.length then bs.getD (b - a) 0 else m.get b := by
  induction bs generalizing m a with
  | nil => simp [Memory.writeBytes]
  | cons c rest ih =>
    simp only [List.length_cons] at ha ⊢
    simp only [Memory.writeBytes]
    rw [ih (Memory.wf_set hw (by omega) c) (by omega), Memory.get_set hw]
    by_cases h1 : b = a
    · subst h1
      simp
    · by_cases h2 : a + 1 ≤ b ∧ b < a + 1 + rest.length
      · have h3 : a ≤ b ∧ b < a + (rest.length + 1) := by omega
        have h4 : b - a = (b - (a + 1)) + 1 := by omega
        rw [if_pos h2, if_pos h3, h4]
        simp
      · have h3 : ¬ (a ≤ b ∧ b < a + (rest.length + 1)) := by omega
        rw [if_neg h2, if_neg h3, if_neg h1]

theorem Memory.wf_writeBytes {m : Memory} (hw : m.wf = true) {a : Nat} {bs : List Byte}
    (ha : a + bs.length ≤ Config.memSize) : (m.writeBytes a bs).wf = true := by
  induction bs generalizing m a with
  | nil => exact hw
  | cons c rest ih =>
    simp only [List.length_cons] at ha
    exact ih (Memory.wf_set hw (by omega) c) (by omega)

theorem writeBlock_wf {m m' : Memory} (hw : m.wf = true) {a : Nat} {bs : List Byte}
    (h : writeBlock m a bs = some m') : m'.wf = true := by
  unfold writeBlock at h
  split at h
  · cases h; exact Memory.wf_writeBytes hw ‹_›
  · cases h

/-! ### The reset memory -/

theorem cellsWf_nonzeroCells {a : Nat} {bs : List Byte} (h : a + bs.length ≤ Config.memSize) :
    cellsWf a (nonzeroCells a bs) = true := by
  induction bs generalizing a with
  | nil => rfl
  | cons b rest ih =>
    simp only [List.length_cons] at h
    have hrest := ih (a := a + 1) (by omega)
    simp only [nonzeroCells]
    split
    · exact cellsWf_mono (by omega) hrest
    · next hb =>
      simp only [cellsWf, Bool.and_eq_true, decide_eq_true_eq]
      exact ⟨⟨⟨Nat.le_refl a, by omega⟩, hb⟩, hrest⟩

theorem cellsFind_nonzeroCells (a : Nat) (bs : List Byte) (b : Nat) :
    (cellsFind (nonzeroCells a bs) b).getD 0x00 = if a ≤ b then bs.getD (b - a) 0x00 else 0x00 := by
  induction bs generalizing a with
  | nil => simp [nonzeroCells, cellsFind]
  | cons c rest ih =>
    have hrest := ih (a + 1)
    have hc : cellsFind (nonzeroCells a (c :: rest)) b =
        if b = a ∧ c ≠ 0x00 then some c else cellsFind (nonzeroCells (a + 1) rest) b := by
      simp only [nonzeroCells]
      by_cases h0 : c = 0x00
      · rw [if_pos h0, if_neg (fun h => h.2 h0)]
      · rw [if_neg h0]
        simp only [cellsFind]
        by_cases hb : b = a
        · rw [if_pos hb, if_pos ⟨hb, h0⟩]
        · rw [if_neg hb, if_neg (fun h => hb h.1)]
    rw [hc]
    rcases Nat.lt_trichotomy a b with h | h | h
    · have h1 : b - a = (b - (a + 1)) + 1 := by omega
      rw [if_neg (by omega), hrest, if_pos (by omega), if_pos (by omega), h1, List.getD_cons_succ]
    · subst h
      rw [if_pos (Nat.le_refl a), Nat.sub_self, List.getD_cons_zero]
      by_cases h0 : c = 0x00
      · rw [if_neg (fun h => h.2 h0), hrest, if_neg (by omega), h0]
      · rw [if_pos ⟨rfl, h0⟩]; rfl
    · rw [if_neg (by omega), hrest, if_neg (by omega), if_neg (by omega)]

/-- What every address reads as after reset: the font table's bytes, and 0x00 everywhere else. -/
theorem Memory.get_reset (font : Vector Byte Config.fontBytes) (a : Nat) :
    (Memory.reset font).get a =
      if Config.fontBase ≤ a then font.toList.getD (a - Config.fontBase) 0x00 else 0x00 :=
  cellsFind_nonzeroCells Config.fontBase font.toList a

theorem Memory.wf_reset (font : Vector Byte Config.fontBytes) : (Memory.reset font).wf = true :=
  cellsWf_mono (Nat.zero_le _)
    (cellsWf_nonzeroCells (by rw [Vector.length_toList]; decide))

/-- The reset memory reads as the spec's: all 0x00, then `write_block(0x0050, FONT_DATA)` (R231). -/
theorem Memory.get_writeBytes_font (font : Vector Byte Config.fontBytes) (a : Nat) :
    (Memory.writeBytes ⟨[]⟩ Config.fontBase font.toList).get a = (Memory.reset font).get a := by
  have hlen : Config.fontBase + font.toList.length ≤ Config.memSize := by
    rw [Vector.length_toList]; decide
  rw [Memory.get_writeBytes rfl hlen, Memory.get_reset]
  by_cases h1 : Config.fontBase ≤ a
  · by_cases h2 : a < Config.fontBase + font.toList.length
    · rw [if_pos ⟨h1, h2⟩, if_pos h1]
    · rw [if_neg (by omega), if_pos h1, List.getD_eq_default _ _ (by omega)]
      rfl
  · rw [if_neg (by omega), if_neg h1]
    rfl

theorem State.resetWith_mem_wf (c : Cfg) : (State.resetWith c).mem.wf = true := Memory.wf_reset c.fontData

@[simp] theorem memRead_of_lt {m : Memory} {a : Nat} (h : a < Config.memSize) :
    memRead m a = some (m.get a) := by
  unfold memRead; rw [if_neg (by omega)]

@[simp] theorem memRead_of_le {m : Memory} {a : Nat} (h : Config.memSize ≤ a) : memRead m a = none := by
  unfold memRead; rw [if_pos h]

theorem rangeOk_iff (a n : Nat) : rangeOk a n = true ↔ n = 0 ∨ a + n ≤ Config.memSize := by
  simp [rangeOk]

end Sys2Proof.Machine
end

