-- ==== Sys2Proof/Laws/Exec.lean ====
section
/-! SUPPORT. What one execution of an instruction can do, said once: `exec_ends` lists the ways any
instruction ends, with the condition of each; `step_next` and `cycle` lemmas reduce a step to it. -/
namespace Sys2Proof.Machine

/-- The condition under which an instruction raises a fault, by kind (60_exceptions.md R251, R253). -/
def Raises (s : State) : FaultKind → Instr → Prop
  | .stackOverflow, .call _ => s.sp.val = 16
  | .invalidAddress, .draw _ _ n =>
    s.dataReady = false ∧ 0 < n.toNat ∧ Config.memSize ≤ s.i.toNat + n.toNat - 1
  | .invalidAddress, .bcd _ => Config.memSize ≤ s.i.toNat + 2
  | .invalidAddress, .store x => Config.memSize ≤ s.i.toNat + x.toNat
  | .invalidAddress, .load x => Config.memSize ≤ s.i.toNat + x.toNat
  | _, _ => False

/-- The instruction selects a key or glyph by `V[x]`. -/
def SelectsByReg (i : Instr) (x : Nibble) : Prop := i = .skipKey x ∨ i = .skipNkey x ∨ i = .font x

/-- How an execution ends: the four outcomes of 00_scope.md R7, each with what it implies. -/
inductive Ends (i : Instr) (s : State) : Host.Outcome State Fault Refusal → Prop where
  | retired (t : State) (hc : t.cycles = s.cycles + 1) (hf : t.fault = s.fault)
      (hno : ∀ k, ¬ Raises s k i) : Ends i s (.next t)
  | held (t : State) (hi : (∃ x, i = .waitKey x) ∨ (s.cfg.qVblankWait = true ∧ ∃ x y n, i = .draw x y n))
      (ht : t = { s with
        keyWait := t.keyWait, lastEdge := t.lastEdge, dataReady := t.dataReady,
        spX := t.spX, spY := t.spY, spN := t.spN, spBuf := t.spBuf })
      (hno : ∀ k, ¬ Raises s k i) : Ends i s (.next t)
  | faulted (k : FaultKind) (hk : Raises s k i) : Ends i s (.next (s.latchFault k (some (encode i))))
  | emptyStack (hi : i = .ret) (hs : s.sp.val = 0) : Ends i s (.fault .retEmptyStack)
  | aboveFifteen (x : Nibble) (hi : SelectsByReg i x) (hp : s.cfg.idxPolicy = .refuse)
      (hx : 15 < (s.reg x).toNat) : Ends i s (.refused .indexAboveFifteen)

theorem keyOrGlyph_eq_none_iff (p : IdxPolicy) (v : Byte) :
    keyOrGlyph p v = none ↔ p = .refuse ∧ 15 < v.toNat := by
  unfold keyOrGlyph
  split
  · next h => simp; omega
  · next h => cases p <;> simp; omega

theorem ends_retire {i : Instr} {s u : State} (hc : u.cycles = s.cycles) (hf : u.fault = s.fault)
    (hno : ∀ k, ¬ Raises s k i) : Ends i s (retire u) :=
  .retired _ (by simp [hc]) (by simp [hf]) hno

theorem ends_aluStep {i : Instr} {s : State} {x : Nibble} {r : Byte} {f : Option Bool}
    (hno : ∀ k, ¬ Raises s k i) : Ends i s (aluStep s x r f) := by
  cases f <;> exact ends_retire rfl rfl hno

/-- Every execution ends in one of the four ways. -/
theorem exec_ends (i : Instr) (s : State) : Ends i s (exec i s) := by
  cases i
  case mov => exact ends_aluStep (by rintro (_ | _ | _) <;> exact id)
  case or => exact ends_aluStep (by rintro (_ | _ | _) <;> exact id)
  case and => exact ends_aluStep (by rintro (_ | _ | _) <;> exact id)
  case xor => exact ends_aluStep (by rintro (_ | _ | _) <;> exact id)
  case add => exact ends_aluStep (by rintro (_ | _ | _) <;> exact id)
  case sub => exact ends_aluStep (by rintro (_ | _ | _) <;> exact id)
  case shr => exact ends_aluStep (by rintro (_ | _ | _) <;> exact id)
  case rsub => exact ends_aluStep (by rintro (_ | _ | _) <;> exact id)
  case shl => exact ends_aluStep (by rintro (_ | _ | _) <;> exact id)
  case cls => exact ends_retire rfl rfl (by rintro (_ | _ | _) <;> exact id)
  case jmp => exact ends_retire rfl rfl (by rintro (_ | _ | _) <;> exact id)
  case jmpOff => exact ends_retire rfl rfl (by rintro (_ | _ | _) <;> exact id)
  case skipEqImm => exact ends_retire (by simp) (by simp) (by rintro (_ | _ | _) <;> exact id)
  case skipNeImm => exact ends_retire (by simp) (by simp) (by rintro (_ | _ | _) <;> exact id)
  case skipEqReg => exact ends_retire (by simp) (by simp) (by rintro (_ | _ | _) <;> exact id)
  case skipNeReg => exact ends_retire (by simp) (by simp) (by rintro (_ | _ | _) <;> exact id)
  case movImm => exact ends_retire rfl rfl (by rintro (_ | _ | _) <;> exact id)
  case addImm => exact ends_retire rfl rfl (by rintro (_ | _ | _) <;> exact id)
  case ldi => exact ends_retire rfl rfl (by rintro (_ | _ | _) <;> exact id)
  case random => exact ends_retire rfl rfl (by rintro (_ | _ | _) <;> exact id)
  case getDelay => exact ends_retire rfl rfl (by rintro (_ | _ | _) <;> exact id)
  case setDelay => exact ends_retire rfl rfl (by rintro (_ | _ | _) <;> exact id)
  case setSound => exact ends_retire rfl rfl (by rintro (_ | _ | _) <;> exact id)
  case addIndex => exact ends_retire rfl rfl (by rintro (_ | _ | _) <;> exact id)
  case ret =>
    simp only [exec, execRet]
    split
    · next h => exact .emptyStack rfl h
    · exact ends_retire rfl rfl (by rintro (_ | _ | _) <;> exact id)
  case call nnn =>
    simp only [exec, execCall]
    split
    · next h => exact .faulted _ h
    · next h => exact ends_retire rfl rfl (by rintro (_ | _ | _) <;> first | exact id | exact h)
  case skipKey x =>
    simp only [exec, execSkipKey]
    split
    · next h =>
      obtain ⟨hp, hx⟩ := (keyOrGlyph_eq_none_iff _ _).mp h
      exact .aboveFifteen x (.inl rfl) hp hx
    · exact ends_retire (by simp) (by simp) (by rintro (_ | _ | _) <;> exact id)
  case skipNkey x =>
    simp only [exec, execSkipNkey]
    split
    · next h =>
      obtain ⟨hp, hx⟩ := (keyOrGlyph_eq_none_iff _ _).mp h
      exact .aboveFifteen x (.inr (.inl rfl)) hp hx
    · exact ends_retire (by simp) (by simp) (by rintro (_ | _ | _) <;> exact id)
  case font x =>
    simp only [exec, execFont]
    split
    · next h =>
      obtain ⟨hp, hx⟩ := (keyOrGlyph_eq_none_iff _ _).mp h
      exact .aboveFifteen x (.inr (.inr rfl)) hp hx
    · exact ends_retire rfl rfl (by rintro (_ | _ | _) <;> exact id)
  case waitKey x =>
    have hno : ∀ k, ¬ Raises s k (.waitKey x) := by rintro (_ | _ | _) <;> exact id
    simp only [exec, execWaitKey]
    split
    · split
      · exact ends_retire rfl rfl hno
      · exact .held _ (.inl ⟨x, rfl⟩) rfl hno
      · exact .held _ (.inl ⟨x, rfl⟩) rfl hno
    · exact .held _ (.inl ⟨x, rfl⟩) rfl hno
  case draw x y n =>
    simp only [exec, execDraw]
    split
    · next hd =>
      have hno : ∀ k, ¬ Raises s k (.draw x y n) := by
        rintro (_ | _ | _) h
        · exact absurd (hd.symm.trans h.1) (by decide)
        · exact h
        · exact h
      simp only [gateAndRender]
      split
      · next hg =>
        simp only [State.advance_cfg, Bool.and_eq_true] at hg
        exact .held _ (.inr ⟨hg.1, x, y, n, rfl⟩) rfl hno
      · exact ends_retire rfl rfl hno
    · next hd =>
      split
      · next hr =>
        have hno : ∀ k, ¬ Raises s k (.draw x y n) := by
          rintro (_ | _ | _) h
          · obtain ⟨-, h1, h2⟩ := h
            rcases (rangeOk_iff _ _).mp hr with h3 | h3 <;> omega
          · exact h
          · exact h
        simp only [gateAndRender]
        split
        · next hg =>
          simp only [State.latchSprite, State.advance_cfg, Bool.and_eq_true] at hg
          exact .held _ (.inr ⟨hg.1, x, y, n, rfl⟩) rfl hno
        · exact ends_retire rfl rfl hno
      · next hr =>
        refine .faulted .invalidAddress ⟨by simpa using hd, ?_⟩
        rw [rangeOk_iff] at hr
        omega
  case bcd x =>
    simp only [exec, execBcd]
    split
    · next hr =>
      refine ends_retire rfl rfl ?_
      rintro (_ | _ | _) h
      · have h : Config.memSize ≤ s.i.toNat + 2 := h
        rcases (rangeOk_iff _ _).mp hr with h3 | h3 <;> omega
      · exact h
      · exact h
    · next hr =>
      refine .faulted .invalidAddress ?_
      rw [rangeOk_iff] at hr
      show Config.memSize ≤ s.i.toNat + 2
      omega
  case store x =>
    simp only [exec, execStore]
    split
    · next hr =>
      refine ends_retire (by simp) (by simp) ?_
      rintro (_ | _ | _) h
      · have h : Config.memSize ≤ s.i.toNat + x.toNat := h
        rcases (rangeOk_iff _ _).mp hr with h3 | h3 <;> omega
      · exact h
      · exact h
    · next hr =>
      refine .faulted .invalidAddress ?_
      rw [rangeOk_iff] at hr
      show Config.memSize ≤ s.i.toNat + x.toNat
      omega
  case load x =>
    simp only [exec, execLoad]
    split
    · next hr =>
      refine ends_retire (by simp) (by simp) ?_
      rintro (_ | _ | _) h
      · have h : Config.memSize ≤ s.i.toNat + x.toNat := h
        rcases (rangeOk_iff _ _).mp hr with h3 | h3 <;> omega
      · exact h
      · exact h
    · next hr =>
      refine .faulted .invalidAddress ?_
      rw [rangeOk_iff] at hr
      show Config.memSize ≤ s.i.toNat + x.toNat
      omega

/-! ### The step -/

theorem step_of_fault {s : State} {r : FaultRecord} (h : s.fault = some r) : step s = .next s := by
  simp only [step, cycle, h]

theorem step_of_fetch_none {s : State} (hf : s.fault = none) (h : fetchWord s = none) :
    step s = .next (s.latchFault .invalidAddress none) := by
  simp only [step, cycle, hf, h, raiseFault]

theorem step_of_decode_none {s : State} {w : Word} (hf : s.fault = none) (h : fetchWord s = some w)
    (hd : decodeWord w = none) : step s = .next (s.latchFault .invalidInstruction (some w)) := by
  simp only [step, cycle, hf, h, hd, raiseFault]

theorem step_of_decode {s : State} {w : Word} {i : Instr} (hf : s.fault = none)
    (h : fetchWord s = some w) (hd : decodeWord w = some i) : step s = exec i s := by
  simp only [step, cycle, hf, h, hd]

theorem presented_eq_some {s : State} {i : Instr} :
    presented s = some i ↔ ∃ w, fetchWord s = some w ∧ decodeWord w = some i := by
  simp [presented, Option.bind_eq_some_iff]

theorem step_of_presented {s : State} {i : Instr} (hf : s.fault = none) (h : presented s = some i) :
    step s = exec i s := by
  obtain ⟨w, hw, hd⟩ := presented_eq_some.mp h
  exact step_of_decode hf hw hd

/-- Everything a step can be: nothing on a faulted core, a fetch fault, a decode fault, or the execution
of the instruction presented. -/
theorem step_cases (s : State) :
    (∃ r, s.fault = some r ∧ step s = .next s) ∨
    (s.fault = none ∧ fetchWord s = none ∧ step s = .next (s.latchFault .invalidAddress none)) ∨
    (∃ w, s.fault = none ∧ fetchWord s = some w ∧ decodeWord w = none ∧
      step s = .next (s.latchFault .invalidInstruction (some w))) ∨
    (∃ w i, s.fault = none ∧ fetchWord s = some w ∧ decodeWord w = some i ∧ presented s = some i ∧
      step s = exec i s) := by
  cases hf : s.fault with
  | some r => exact .inl ⟨r, rfl, step_of_fault hf⟩
  | none =>
    cases hw : fetchWord s with
    | none => exact .inr (.inl ⟨rfl, rfl, step_of_fetch_none hf hw⟩)
    | some w =>
      cases hd : decodeWord w with
      | none => exact .inr (.inr (.inl ⟨w, rfl, rfl, hd, step_of_decode_none hf hw hd⟩))
      | some i =>
        exact .inr (.inr (.inr ⟨w, i, rfl, rfl, hd, presented_eq_some.mpr ⟨w, hw, hd⟩,
          step_of_decode hf hw hd⟩))

/-- The fetch succeeds exactly below the last byte of the bank. -/
theorem fetchWord_eq (s : State) :
    fetchWord s =
      if 0x0FFF ≤ s.pc.toNat then none
      else some (wordOfBytes (s.mem.get s.pc.toNat) (s.mem.get (s.pc.toNat + 1))) := by
  have hm : Config.memSize = 0x1000 := rfl
  unfold fetchWord memReadWord memRead
  by_cases h1 : Config.memSize ≤ s.pc.toNat
  · rw [if_pos h1, if_pos (by omega)]
  · by_cases h2 : Config.memSize ≤ s.pc.toNat + 1
    · simp [h1, h2]; omega
    · simp [h1, h2]; omega

/-- The fetch looks at `pc` and memory alone. -/
theorem fetchWord_congr {s t : State} (hp : t.pc = s.pc) (hm : t.mem = s.mem) :
    fetchWord t = fetchWord s := by
  simp only [fetchWord, hp, hm]

theorem presented_congr {s t : State} (hp : t.pc = s.pc) (hm : t.mem = s.mem) :
    presented t = presented s := by
  simp only [presented, fetchWord_congr hp hm]

end Sys2Proof.Machine
end

