-- ==== Sys2Proof/Laws/Family.lean ====
section
/-! SUPPORT. One lemma per shared operation of the instruction families, in the terms of Safety.lean: the
ALU write-back, the register load, the skip, the key or glyph number, the register block, the sprite's
latch and render. The proofs about instructions cite these and do not unfold the operations. -/
namespace Sys2Proof.Machine

/-- Equal fields outside `V`, `pc`, `I` and `cycles` are all that `RestUnchanged` asks. -/
theorem RestUnchanged.of_fields {s t : State} (hm : t.mem = s.mem) (h1 : t.stack = s.stack)
    (h2 : t.sp = s.sp) (h3 : t.dt = s.dt) (h4 : t.st = s.st) (h5 : t.keys = s.keys)
    (h6 : t.lastEdge = s.lastEdge) (h7 : t.keyWait = s.keyWait) (h8 : t.fb = s.fb)
    (h9 : SameLatch s t) (h10 : SameControl s t) (h11 : t.randomDraws = s.randomDraws) :
    RestUnchanged s t :=
  ⟨fun a => by rw [hm], ⟨h1, h2⟩, ⟨h3, h4⟩, ⟨h5, h6, h7⟩, ⟨h8, h9⟩, h10, h11⟩

/-- A byte that is the same in two memories reads the same. -/
theorem memRead_congr {m m' : Memory} {a : Nat} (h : m'.get a = m.get a) :
    memRead m' a = memRead m a := by
  unfold memRead; rw [h]

/-- A register load that retires. -/
theorem loadsRegister_setReg (s : State) (x : Nibble) (b : Byte) :
    LoadsRegister s { s.advance.setReg x b with cycles := s.cycles + 1 } x b := by
  refine ⟨?_, ?_, rfl, rfl, rfl⟩
  · exact (State.reg_setReg s.advance x x b).trans (if_pos rfl)
  · intro z hz
    exact (State.reg_setReg s.advance x z b).trans (if_neg (by simpa using hz))

/-- Every ALU operation answers a next state, and this is it. -/
theorem aluStep_result (s : State) (x : Nibble) (r : Byte) (f : Option Bool) :
    ∃ t, aluStep s x r f = .next t ∧ AluResult s t x r f := by
  refine ⟨_, rfl, ?_⟩
  cases f with
  | none =>
    exact ⟨rfl, rfl, rfl, by apply RestUnchanged.of_fields <;> simp [SameLatch, SameControl],
      (loadsRegister_setReg s x r).1, (loadsRegister_setReg s x r).2.1⟩
  | some b =>
    have hr : ∀ z, State.reg { s.advance.aluWriteBack x r (some b) with cycles := s.cycles + 1 } z =
        if z = 15 then flagByte b else if z = x then r else s.reg z := by
      intro z
      exact (State.reg_setReg _ _ _ _).trans (by rw [State.reg_setReg]; rfl)
    refine ⟨rfl, rfl, rfl, by apply RestUnchanged.of_fields <;> simp [SameLatch, SameControl],
      ?_, ?_, ?_⟩
    · exact (hr 15).trans (by simp [flagByte])
    · intro hx; exact (hr x).trans (by rw [if_neg hx, if_pos rfl])
    · intro z hz; exact (hr z).trans (by simp at hz; simp [hz])

/-- A skip that retires. -/
theorem skipResult_skipIf (s : State) {c : Prop} {b : Bool} (hb : b = true ↔ c) :
    SkipResult s { s.advance.skipIf b with cycles := (s.advance.skipIf b).cycles + 1 } c := by
  refine ⟨fun h => ?_, fun h => ?_, by simp, fun z _ => ?_, by simp, ?_⟩
  · simp [State.skipIf_pc, hb.mpr h, BitVec.add_assoc]
  · have : b = false := by rw [← Bool.not_eq_true, hb]; exact h
    simp [State.skipIf_pc, this]
  · exact State.reg_congr (by simp) z
  · apply RestUnchanged.of_fields <;> simp [SameLatch, SameControl]

/-- A key or glyph number that has a meaning is the low four bits. -/
theorem keyOrGlyph_eq_some {p : IdxPolicy} {v : Byte} (h : v.toNat ≤ 15 ∨ p = .mask4) :
    keyOrGlyph p v = some (BitVec.ofNat 4 (v.toNat % 16)) := by
  have : v.extractLsb' 0 4 = BitVec.ofNat 4 (v.toNat % 16) := by
    apply BitVec.eq_of_toNat_eq; simp
  unfold keyOrGlyph
  split
  · rw [this]
  · rcases h with h | h
    · omega
    · subst h; simp [this]

theorem length_regsUpTo (s : State) (x : Nibble) : (regsUpTo s x).length = x.toNat + 1 := by
  simp [regsUpTo]; omega

/-- The `r`-th byte of the register block is `V[r]`. -/
theorem getD_regsUpTo (s : State) {x r : Nibble} (h : r ≤ x) :
    (regsUpTo s x).getD r.toNat 0 = s.reg r := by
  have h' : r.toNat ≤ x.toNat := h
  have h16 : r.toNat < 16 := r.isLt
  rw [List.getD_eq_getElem?_getD]
  unfold regsUpTo State.reg
  rw [List.getElem?_take, if_pos (by omega), Vector.getElem?_toList,
    Vector.getElem?_eq_getElem h16]
  rfl

/-- A loaded register block: `V[r]` from memory up to `x`, unchanged above. -/
theorem getElem_loadRegs (s : State) (m : Memory) (a : Nat) (x r : Nibble) :
    (loadRegs s.v m a x)[r.toNat]'r.isLt = if r ≤ x then m.get (a + r.toNat) else s.reg r := by
  simp [loadRegs, State.reg]; rfl

/-- The increment of `I` as a number. -/
theorem toNat_autoIncrement_i (s : State) (x : Nibble) :
    (autoIncrement s x).i.toNat =
      if s.cfg.qIndexInc then (s.i.toNat + x.toNat + 1) % 65536 else s.i.toNat := by
  rw [autoIncrement_i]
  split
  · have hx : x.toNat < 16 := x.isLt
    simp
  · rfl

/-- The latch phase copies coordinates, row count and bytes. -/
theorem latchedSprite_latchSprite (s : State) (x y n : Nibble) :
    latchedSprite (s.latchSprite x y n) =
      ⟨s.reg x, s.reg y, (List.range n.toNat).map fun r => s.mem.get (s.i.toNat + r)⟩ := by
  unfold latchedSprite State.latchSprite
  simp only [Sprite.mk.injEq, true_and]
  apply List.ext_getElem
  · have hn : n.toNat < 16 := n.isLt
    simp; omega
  · intro j h1 h2
    simp at h1 h2
    simp [h2]

/-- The pixels the render's loops reach are those the latched sprite covers. -/
theorem covers_latchedSprite (s : State) (y x : Nat) :
    (∃ r < s.spN.toNat, ∃ b < 8, spriteBit (s.spriteByte r) b = true ∧
        if s.cfg.qClip then y = s.spY.toNat % 32 + r ∧ x = s.spX.toNat % 64 + b
        else y = (s.spY.toNat + r) % 32 ∧ x = (s.spX.toNat + b) % 64) ↔
      Covers s.cfg.qClip (latchedSprite s) y x := by
  constructor
  · rintro ⟨r, hr, b, hb, h1, h2⟩
    refine ⟨r, b, s.spriteByte r, ?_, hb, h1, h2⟩
    have h15 : r < 15 := by have hn : s.spN.toNat < 16 := s.spN.isLt; omega
    simp [latchedSprite, State.spriteByte, hr, h15]
  · rintro ⟨r, b, byte, h0, hb, h1, h2⟩
    have h0' : r < s.spN.toNat ∧ s.spBuf.toList[r]? = some byte := by
      have h0 : (s.spBuf.toList.take s.spN.toNat)[r]? = some byte := h0
      rw [List.getElem?_take] at h0
      split at h0
      · exact ⟨‹_›, h0⟩
      · cases h0
    refine ⟨r, h0'.1, b, hb, ?_, h2⟩
    have : s.spriteByte r = byte := by
      have h3 := h0'.2
      unfold State.spriteByte
      rw [Vector.getElem?_toList] at h3
      rw [h3]; rfl
    rw [this]; exact h1

/-- The render phase toggles the covered pixels and `VF` reports a lit one among them. -/
theorem renderLatched_result (s : State) :
    (∀ py px, py < 32 → px < 64 → (pixelAt s.renderLatched.fb py px = true ↔
      ¬ (pixelAt s.fb py px = true ↔ Covers s.cfg.qClip (latchedSprite s) py px))) ∧
    (s.renderLatched.reg 15 = 1 ↔ ∃ py px, py < 32 ∧ px < 64 ∧ pixelAt s.fb py px = true ∧
      Covers s.cfg.qClip (latchedSprite s) py px) ∧
    (s.renderLatched.reg 15 = 0 ∨ s.renderLatched.reg 15 = 1) := by
  have hd := (drawn_render s).congr fun y x _ _ => covers_latchedSprite s y x
  have hvf : s.renderLatched.reg 15 = flagByte (render s).2 := State.reg_setReg_self s 15 _
  have h1 : flagByte (render s).2 = 1 ↔ (render s).2 = true := by
    cases (render s).2 <;> simp [flagByte]
  refine ⟨hd.pixel, ?_, ?_⟩
  · rw [hvf, h1, hd.collision]; simp
  · rw [hvf]; cases (render s).2 <;> simp [flagByte]

/-! ### The guarded instructions, on the branch where they complete and on the one where they fault -/

theorem exec_skipKey_of_some {s : State} {x k : Nibble}
    (h : keyOrGlyph s.cfg.idxPolicy (s.reg x) = some k) :
    exec (.skipKey x) s = retire (s.advance.skipIf (s.keyDown k)) := by
  simp only [exec, execSkipKey, h]

theorem exec_skipNkey_of_some {s : State} {x k : Nibble}
    (h : keyOrGlyph s.cfg.idxPolicy (s.reg x) = some k) :
    exec (.skipNkey x) s = retire (s.advance.skipIf (!s.keyDown k)) := by
  simp only [exec, execSkipNkey, h]

theorem exec_font_of_some {s : State} {x g : Nibble}
    (h : keyOrGlyph s.cfg.idxPolicy (s.reg x) = some g) :
    exec (.font x) s = retire
      (s.advance.setI (BitVec.ofNat 16 (Config.fontBase + Config.fontGlyphBytes * g.toNat))) := by
  simp only [exec, execFont, h]

theorem exec_bcd_of_rangeOk {s : State} (x : Nibble) (h : rangeOk s.i.toNat 3 = true) :
    exec (.bcd x) s = retire
      { s.advance with mem := s.mem.writeBytes s.i.toNat (bcdDigits (s.reg x)) } :=
  if_pos h

theorem exec_bcd_of_not_rangeOk {s : State} (x : Nibble) (h : ¬ rangeOk s.i.toNat 3 = true) :
    exec (.bcd x) s = raiseFault s .invalidAddress (some (encode (.bcd x))) :=
  if_neg h

theorem exec_store_of_rangeOk {s : State} {x : Nibble}
    (h : rangeOk s.i.toNat (x.toNat + 1) = true) :
    exec (.store x) s = retire (autoIncrement
      { s.advance with mem := s.mem.writeBytes s.i.toNat (regsUpTo s x) } x) :=
  if_pos h

theorem exec_store_of_not_rangeOk {s : State} {x : Nibble}
    (h : ¬ rangeOk s.i.toNat (x.toNat + 1) = true) :
    exec (.store x) s = raiseFault s .invalidAddress (some (encode (.store x))) :=
  if_neg h

theorem exec_load_of_rangeOk {s : State} {x : Nibble}
    (h : rangeOk s.i.toNat (x.toNat + 1) = true) :
    exec (.load x) s = retire (autoIncrement
      { s.advance with v := loadRegs s.v s.mem s.i.toNat x } x) :=
  if_pos h

theorem exec_load_of_not_rangeOk {s : State} {x : Nibble}
    (h : ¬ rangeOk s.i.toNat (x.toNat + 1) = true) :
    exec (.load x) s = raiseFault s .invalidAddress (some (encode (.load x))) :=
  if_neg h

/-- DRAW on an adapter that holds a sprite. -/
theorem exec_draw_of_latched {s : State} (x y n : Nibble) (h : s.dataReady = true) :
    exec (.draw x y n) s = gateAndRender s s.advance :=
  if_pos h

/-- DRAW that latches. -/
theorem exec_draw_of_rangeOk {s : State} (x y n : Nibble) (hd : s.dataReady = false)
    (hr : rangeOk s.i.toNat n.toNat = true) :
    exec (.draw x y n) s = gateAndRender s (s.advance.latchSprite x y n) := by
  simp only [exec, execDraw, hd, hr, if_true, Bool.false_eq_true, if_false]

end Sys2Proof.Machine
end

