-- ==== Sys2Proof/Laws/PerInstr.lean ====
section
/-! SUPPORT. Statements for all instructions, made constructor by constructor (LAWS.json). -/
namespace Sys2Proof.Laws.OpcodeRow

/-- The word of the instruction matches the row of the opcode map that bears its tag
(30_encoding.md R95). -/
def Statement (i : Instr) : Prop :=
  ∃ r ∈ opcodeMap, r.mnemonic = i.mnemonic ∧ encode i &&& r.mask = r.pattern

theorem cls : Statement (.cls) :=
  ⟨⟨"CLS", 0xFFFF, 0x00E0⟩, by decide, rfl, by rfl⟩

theorem ret : Statement (.ret) :=
  ⟨⟨"RET", 0xFFFF, 0x00EE⟩, by decide, rfl, by rfl⟩

theorem jmp (nnn : Addr) : Statement (.jmp nnn) :=
  ⟨⟨"JMP", 0xF000, 0x1000⟩, by decide, rfl, by simp [encode]; rfl⟩

theorem call (nnn : Addr) : Statement (.call nnn) :=
  ⟨⟨"CALL", 0xF000, 0x2000⟩, by decide, rfl, by simp [encode]; rfl⟩

theorem skipEqImm (x : Nibble) (nn : Byte) : Statement (.skipEqImm x nn) :=
  ⟨⟨"SKIP_EQ_IMM", 0xF000, 0x3000⟩, by decide, rfl, by simp [encode]; rfl⟩

theorem skipNeImm (x : Nibble) (nn : Byte) : Statement (.skipNeImm x nn) :=
  ⟨⟨"SKIP_NE_IMM", 0xF000, 0x4000⟩, by decide, rfl, by simp [encode]; rfl⟩

theorem skipEqReg (x y : Nibble) : Statement (.skipEqReg x y) :=
  ⟨⟨"SKIP_EQ_REG", 0xF00F, 0x5000⟩, by decide, rfl, by simp [encode]; rfl⟩

theorem movImm (x : Nibble) (nn : Byte) : Statement (.movImm x nn) :=
  ⟨⟨"MOV_IMM", 0xF000, 0x6000⟩, by decide, rfl, by simp [encode]; rfl⟩

theorem addImm (x : Nibble) (nn : Byte) : Statement (.addImm x nn) :=
  ⟨⟨"ADD_IMM", 0xF000, 0x7000⟩, by decide, rfl, by simp [encode]; rfl⟩

theorem mov (x y : Nibble) : Statement (.mov x y) :=
  ⟨⟨"MOV", 0xF00F, 0x8000⟩, by decide, rfl, by simp [encode]; rfl⟩

theorem or (x y : Nibble) : Statement (.or x y) :=
  ⟨⟨"OR", 0xF00F, 0x8001⟩, by decide, rfl, by simp [encode]; rfl⟩

theorem and (x y : Nibble) : Statement (.and x y) :=
  ⟨⟨"AND", 0xF00F, 0x8002⟩, by decide, rfl, by simp [encode]; rfl⟩

theorem xor (x y : Nibble) : Statement (.xor x y) :=
  ⟨⟨"XOR", 0xF00F, 0x8003⟩, by decide, rfl, by simp [encode]; rfl⟩

theorem add (x y : Nibble) : Statement (.add x y) :=
  ⟨⟨"ADD", 0xF00F, 0x8004⟩, by decide, rfl, by simp [encode]; rfl⟩

theorem sub (x y : Nibble) : Statement (.sub x y) :=
  ⟨⟨"SUB", 0xF00F, 0x8005⟩, by decide, rfl, by simp [encode]; rfl⟩

theorem shr (x y : Nibble) : Statement (.shr x y) :=
  ⟨⟨"SHR", 0xF00F, 0x8006⟩, by decide, rfl, by simp [encode]; rfl⟩

theorem rsub (x y : Nibble) : Statement (.rsub x y) :=
  ⟨⟨"RSUB", 0xF00F, 0x8007⟩, by decide, rfl, by simp [encode]; rfl⟩

theorem shl (x y : Nibble) : Statement (.shl x y) :=
  ⟨⟨"SHL", 0xF00F, 0x800E⟩, by decide, rfl, by simp [encode]; rfl⟩

theorem skipNeReg (x y : Nibble) : Statement (.skipNeReg x y) :=
  ⟨⟨"SKIP_NE_REG", 0xF00F, 0x9000⟩, by decide, rfl, by simp [encode]; rfl⟩

theorem ldi (nnn : Addr) : Statement (.ldi nnn) :=
  ⟨⟨"LDI", 0xF000, 0xA000⟩, by decide, rfl, by simp [encode]; rfl⟩

theorem jmpOff (nnn : Addr) (x : Nibble) : Statement (.jmpOff nnn x) :=
  ⟨⟨"JMP_OFF", 0xF000, 0xB000⟩, by decide, rfl, by simp [encode]; rfl⟩

theorem random (x : Nibble) (nn : Byte) : Statement (.random x nn) :=
  ⟨⟨"RANDOM", 0xF000, 0xC000⟩, by decide, rfl, by simp [encode]; rfl⟩

theorem draw (x y n : Nibble) : Statement (.draw x y n) :=
  ⟨⟨"DRAW", 0xF000, 0xD000⟩, by decide, rfl, by simp [encode]; rfl⟩

theorem skipKey (x : Nibble) : Statement (.skipKey x) :=
  ⟨⟨"SKIP_KEY", 0xF0FF, 0xE09E⟩, by decide, rfl, by simp [encode]; rfl⟩

theorem skipNkey (x : Nibble) : Statement (.skipNkey x) :=
  ⟨⟨"SKIP_NKEY", 0xF0FF, 0xE0A1⟩, by decide, rfl, by simp [encode]; rfl⟩

theorem getDelay (x : Nibble) : Statement (.getDelay x) :=
  ⟨⟨"GET_DELAY", 0xF0FF, 0xF007⟩, by decide, rfl, by simp [encode]; rfl⟩

theorem waitKey (x : Nibble) : Statement (.waitKey x) :=
  ⟨⟨"WAIT_KEY", 0xF0FF, 0xF00A⟩, by decide, rfl, by simp [encode]; rfl⟩

theorem setDelay (x : Nibble) : Statement (.setDelay x) :=
  ⟨⟨"SET_DELAY", 0xF0FF, 0xF015⟩, by decide, rfl, by simp [encode]; rfl⟩

theorem setSound (x : Nibble) : Statement (.setSound x) :=
  ⟨⟨"SET_SOUND", 0xF0FF, 0xF018⟩, by decide, rfl, by simp [encode]; rfl⟩

theorem addIndex (x : Nibble) : Statement (.addIndex x) :=
  ⟨⟨"ADD_INDEX", 0xF0FF, 0xF01E⟩, by decide, rfl, by simp [encode]; rfl⟩

theorem font (x : Nibble) : Statement (.font x) :=
  ⟨⟨"FONT", 0xF0FF, 0xF029⟩, by decide, rfl, by simp [encode]; rfl⟩

theorem bcd (x : Nibble) : Statement (.bcd x) :=
  ⟨⟨"BCD", 0xF0FF, 0xF033⟩, by decide, rfl, by simp [encode]; rfl⟩

theorem store (x : Nibble) : Statement (.store x) :=
  ⟨⟨"STORE", 0xF0FF, 0xF055⟩, by decide, rfl, by simp [encode]; rfl⟩

theorem load (x : Nibble) : Statement (.load x) :=
  ⟨⟨"LOAD", 0xF0FF, 0xF065⟩, by decide, rfl, by simp [encode]; rfl⟩

end Sys2Proof.Laws.OpcodeRow
end

