-- ==== Sys2Proof/Machine/Ports.lean ====
section
/-! DEFINITION. The command port and the load port of the port-level picture (46_host_operations.md R241), one possible
wrapping of the host operations that no rule depends on (log 27). -/
namespace Sys2Proof.Machine

/-- One clock of the command port: `cmd_valid`, `cmd_op`, `cmd_key`. Codes 6 and 7 are ignored. -/
def commandPort (valid : Bool) (op : BitVec 3) (key : Nibble) (s : State) :
    Host.Outcome State Fault Refusal :=
  if valid then
    match op with
    | 0#3 => .next (hostStep .reset s)
    | 1#3 => step s
    | 2#3 => .next (hostStep (.keypress key) s)
    | 3#3 => .next (hostStep (.keyrelease key) s)
    | 4#3 => .next (hostStep .decrementTimers s)
    | 5#3 => .next (hostStep .vblankTrigger s)
    | _ => .next s
  else .next s

/-- One clock of the load port: `ld_valid`, `ld_first`, `ld_data`, with the port's own address counter
`next`; answers the state, the counter and `ld_err`. The first byte comes with `ld_first`; a byte that
would pass the top of the bank leaves the reset state with no program, as `load_rom` does (log 27). -/
def loadPort (valid first : Bool) (data : Byte) (next : Nat) (s : State) : State × Nat × Bool :=
  if valid then
    let a := if first then Config.entry.toNat else next
    let s := if first then resetOp s else s
    match memWrite s.mem a data with
    | some m => ({ s with mem := m }, a + 1, false)
    | none => (resetOp s, a, true)
  else (s, next, false)

end Sys2Proof.Machine
end

