-- ==== Sys2Proof/Tests/Slice0.lean ====
section
/-! SUPPORT. Tests of the model and witnesses of the statements' hypotheses. The expected values are those of
95_test_vectors.md (the vector's name stands in the theorem's docstring) or the worked examples of the
rules, never the model's own answers. Every test is one decode, one step or one host operation. -/
namespace Sys2Proof.Tests
open Sys2Proof.Machine

/-! ### Helpers -/

/-- The reset state with one word where the next step fetches. -/
def start (word : Nat) : State := State.reset.withFetchWord 16 word

/-- The same with another configuration. -/
def startCfg (c : Cfg) (word : Nat) : State := { start word with cfg := c }

/-- Bytes placed in memory. -/
def put (s : State) (a : Nat) (bs : List Byte) : State := { s with mem := s.mem.writeBytes a bs }

/-- The bytes memory reads from `a` on. -/
def peek (s : State) (a n : Nat) : List (Option Byte) := (List.range n).map fun j => memRead s.mem (a + j)

/-- The outcome is a next state with a property. -/
def nextIs (o : Host.Outcome State Fault Refusal) (p : State → Bool) : Bool :=
  match o with
  | .next t => p t
  | .fault _ => false
  | .refused _ => false

/-- The step of `s` raises this fault and leaves the rest as it was. -/
def faultsWith (s : State) (k : FaultKind) (op : Option Word) : Bool :=
  nextIs (step s) fun t => decide (t = { s with fault := some ⟨k, s.pc, op⟩ })

/-- The outcome is this fault of the model. -/
def stopsWith (o : Host.Outcome State Fault Refusal) (f : Fault) : Bool :=
  match o with
  | .next _ => false
  | .fault g => decide (g = f)
  | .refused _ => false

/-- The outcome is this refusal. -/
def refusesWith (o : Host.Outcome State Fault Refusal) (r : Refusal) : Bool :=
  match o with
  | .next _ => false
  | .fault _ => false
  | .refused q => decide (q = r)

/-! ### WellFormed -/

theorem test_wf_refuses_an_offset_jump_whose_fields_differ : (Instr.jmpOff 0x210 3).wf = false := by decide
theorem test_wf_accepts_an_offset_jump_whose_fields_agree : (Instr.jmpOff 0x210 2).wf = true := by decide

/-! ### Decoding: words written out from the rows of 30_encoding.md R95, bit by bit -/

theorem test_decode_cpu :
    decodeWord 0b0000_0000_1110_1110#16 = some (.ret) ∧
    decodeWord 0b0001_0010_0011_0100#16 = some (.jmp 0x234) ∧
    decodeWord 0b0010_1010_1011_1100#16 = some (.call 0xABC) ∧
    decodeWord 0b0011_0011_0010_1010#16 = some (.skipEqImm 3 0x2A) ∧
    decodeWord 0b0100_1110_1111_0001#16 = some (.skipNeImm 14 0xF1) ∧
    decodeWord 0b0101_0001_0010_0000#16 = some (.skipEqReg 1 2) ∧
    decodeWord 0b0110_1010_0010_1011#16 = some (.movImm 10 0x2B) ∧
    decodeWord 0b0111_0001_0000_0101#16 = some (.addImm 1 0x05) ∧
    decodeWord 0b1001_0001_0010_0000#16 = some (.skipNeReg 1 2) ∧
    decodeWord 0b1010_0010_1111_0000#16 = some (.ldi 0x2F0) ∧
    decodeWord 0b1011_0010_0001_0000#16 = some (.jmpOff 0x210 2) ∧
    decodeWord 0b1100_0011_0000_1111#16 = some (.random 3 0x0F) := by decide

theorem test_decode_alu :
    decodeWord 0b1000_0001_0010_0000#16 = some (.mov 1 2) ∧
    decodeWord 0b1000_0011_0100_0001#16 = some (.or 3 4) ∧
    decodeWord 0b1000_0101_0110_0010#16 = some (.and 5 6) ∧
    decodeWord 0b1000_0111_1000_0011#16 = some (.xor 7 8) ∧
    decodeWord 0b1000_1001_1010_0100#16 = some (.add 9 10) ∧
    decodeWord 0b1000_1011_1100_0101#16 = some (.sub 11 12) ∧
    decodeWord 0b1000_1101_1110_0110#16 = some (.shr 13 14) ∧
    decodeWord 0b1000_1111_0000_0111#16 = some (.rsub 15 0) ∧
    decodeWord 0b1000_0001_0010_1110#16 = some (.shl 1 2) := by decide

theorem test_decode_display :
    decodeWord 0b0000_0000_1110_0000#16 = some (.cls) ∧
    decodeWord 0b1101_0001_0010_0101#16 = some (.draw 1 2 5) := by decide

theorem test_decode_system :
    decodeWord 0b1110_0101_1001_1110#16 = some (.skipKey 5) ∧
    decodeWord 0b1110_0101_1010_0001#16 = some (.skipNkey 5) ∧
    decodeWord 0b1111_0010_0000_0111#16 = some (.getDelay 2) ∧
    decodeWord 0b1111_0011_0000_1010#16 = some (.waitKey 3) ∧
    decodeWord 0b1111_0010_0001_0101#16 = some (.setDelay 2) ∧
    decodeWord 0b1111_0010_0001_1000#16 = some (.setSound 2) ∧
    decodeWord 0b1111_0001_0001_1110#16 = some (.addIndex 1) ∧
    decodeWord 0b1111_0100_0010_1001#16 = some (.font 4) ∧
    decodeWord 0b1111_0001_0011_0011#16 = some (.bcd 1) ∧
    decodeWord 0b1111_0010_0101_0101#16 = some (.store 2) ∧
    decodeWord 0b1111_0001_0110_0101#16 = some (.load 1) := by decide

/-- The illegal words of vectors V3. -/
theorem test_decode_rejects_illegal_words :
    [0x0000#16, 0x00E1#16, 0x00EF#16, 0x0123#16, 0x5001#16, 0x5121#16, 0x8008#16, 0x8009#16, 0x800A#16, 0x800D#16, 0x800F#16, 0x9001#16, 0x912F#16, 0xE000#16, 0xE09F#16, 0xE1A0#16, 0xF000#16, 0xF002#16, 0xF030#16, 0xF075#16, 0xF085#16, 0xF13A#16, 0xF1FF#16].all
      (fun word => (decodeWord word).isNone) = true := by decide

theorem test_decode_bytes_are_big_endian :
    decodeBytes [0x12, 0x34, 0x77] = .instr (.jmp 0x234) [0x77] ∧ decodeBytes [0x12] = .truncated ∧
      decodeTableWord 16 0x1234 = some (.jmp 0x234) := by decide

/-! ### The ALU family, vectors AL1 to AL48 -/

/-- AL1. -/
theorem test_mov_leaves_the_flag :
    nextIs (step ((((start 0x8120).setReg 1 0x12).setReg 2 0x34).setReg 15 0x01)) (fun t =>
      t.reg 1 == 0x34 && t.reg 15 == 0x01 && t.pc == 0x202 && t.cycles == 1) = true := by decide

/-- AL4. -/
theorem test_mov_into_VF_under_the_parameter :
    nextIs (step (((startCfg { Cfg.vipPreset with pMovResetsVf := true } 0x8F20).setReg 2 0x34).setReg 15 0x01)) (fun t =>
      t.reg 15 == 0x00 && t.pc == 0x202 && t.cycles == 1) = true := by decide

/-- AL10. -/
theorem test_or_reads_VF_before_the_reset :
    nextIs (step (((start 0x81F1).setReg 1 0x10).setReg 15 0x01)) (fun t =>
      t.reg 1 == 0x11 && t.reg 15 == 0x00 && t.pc == 0x202 && t.cycles == 1) = true := by decide

/-- AL9. -/
theorem test_or_without_the_quirk :
    nextIs (step (((startCfg { Cfg.vipPreset with qVfReset := false } 0x8F21).setReg 2 0x0E).setReg 15 0x01)) (fun t =>
      t.reg 15 == 0x0F && t.pc == 0x202 && t.cycles == 1) = true := by decide

/-- AL11. -/
theorem test_and :
    nextIs (step ((((start 0x8122).setReg 1 0xF3).setReg 2 0x3F).setReg 15 0x01)) (fun t =>
      t.reg 1 == 0x33 && t.reg 15 == 0x00 && t.pc == 0x202 && t.cycles == 1) = true := by decide

/-- AL14. -/
theorem test_xor_with_itself :
    nextIs (step (((startCfg { Cfg.vipPreset with qVfReset := false } 0x8113).setReg 1 0xA5).setReg 15 0x01)) (fun t =>
      t.reg 1 == 0x00 && t.reg 15 == 0x01 && t.pc == 0x202 && t.cycles == 1) = true := by decide

/-- AL13. -/
theorem test_xor :
    nextIs (step ((((start 0x8123).setReg 1 0xFF).setReg 2 0x0F).setReg 15 0x01)) (fun t =>
      t.reg 1 == 0xF0 && t.reg 15 == 0x00 && t.pc == 0x202 && t.cycles == 1) = true := by decide

/-- AL15. -/
theorem test_add_wraps :
    nextIs (step (((start 0x8124).setReg 1 0xFF).setReg 2 0x01)) (fun t =>
      t.reg 1 == 0x00 && t.reg 15 == 0x01 && t.pc == 0x202 && t.cycles == 1) = true := by decide

/-- AL23. -/
theorem test_add_flag_replaces_the_sum :
    nextIs (step (((start 0x8F14).setReg 1 0x02).setReg 15 0x03)) (fun t =>
      t.reg 15 == 0x00 && t.pc == 0x202 && t.cycles == 1) = true := by decide

/-- AL26. -/
theorem test_sub_borrows :
    nextIs (step (((start 0x8125).setReg 1 0x03).setReg 2 0x05)) (fun t =>
      t.reg 1 == 0xFE && t.reg 15 == 0x00 && t.pc == 0x202 && t.cycles == 1) = true := by decide

/-- AL27. -/
theorem test_sub_equal_operands :
    nextIs (step (((start 0x8125).setReg 1 0x07).setReg 2 0x07)) (fun t =>
      t.reg 1 == 0x00 && t.reg 15 == 0x01 && t.pc == 0x202 && t.cycles == 1) = true := by decide

/-- AL31. -/
theorem test_rsub :
    nextIs (step (((start 0x8127).setReg 1 0x03).setReg 2 0x05)) (fun t =>
      t.reg 1 == 0x02 && t.reg 15 == 0x01 && t.pc == 0x202 && t.cycles == 1) = true := by decide

/-- AL34. -/
theorem test_rsub_borrows :
    nextIs (step (((start 0x8127).setReg 1 0x01).setReg 2 0x00)) (fun t =>
      t.reg 1 == 0xFF && t.reg 15 == 0x00 && t.pc == 0x202 && t.cycles == 1) = true := by decide

/-- AL36. -/
theorem test_shr_shifts_y :
    nextIs (step (((start 0x8126).setReg 1 0xAA).setReg 2 0x05)) (fun t =>
      t.reg 1 == 0x02 && t.reg 2 == 0x05 && t.reg 15 == 0x01 && t.pc == 0x202 && t.cycles == 1) = true := by decide

/-- AL39. -/
theorem test_shr_shifts_x :
    nextIs (step ((((startCfg { Cfg.vipPreset with qShiftIgnoresY := true } 0x8126).setReg 1 0x80).setReg 2 0x00).setReg 15 0x01)) (fun t =>
      t.reg 1 == 0x40 && t.reg 15 == 0x00 && t.pc == 0x202 && t.cycles == 1) = true := by decide

/-- AL43. -/
theorem test_shl_shifts_y :
    nextIs (step (((start 0x812E).setReg 1 0x81).setReg 2 0x40)) (fun t =>
      t.reg 1 == 0x80 && t.reg 15 == 0x00 && t.pc == 0x202 && t.cycles == 1) = true := by decide

/-- AL44. -/
theorem test_shl_shifts_x :
    nextIs (step (((startCfg { Cfg.vipPreset with qShiftIgnoresY := true } 0x812E).setReg 1 0x81).setReg 2 0x40)) (fun t =>
      t.reg 1 == 0x02 && t.reg 15 == 0x01 && t.pc == 0x202 && t.cycles == 1) = true := by decide

/-! ### The CPU family, vectors CP1 to CP34 -/

/-- CP1. -/
theorem test_jmp :
    nextIs (step (start 0x1234)) (fun t =>
      t.pc == 0x234 && t.cycles == 1) = true := by decide

/-- CP4. -/
theorem test_call :
    nextIs (step (start 0x2300)) (fun t =>
      t.stack[0] == 0x202 && t.sp == 1 && t.pc == 0x300) = true := by decide

/-- CP6. -/
theorem test_call_overflows :
    faultsWith { start 0x2300 with sp := 16 } .stackOverflow (some 0x2300) = true := by decide

/-- CP7. -/
theorem test_ret :
    nextIs (step ({ start 0x00EE with sp := 2, stack := (State.reset.stack.set 0 0x202).set 1 0x304 })) (fun t =>
      t.sp == 1 && t.pc == 0x304 && t.stack[1] == 0x304) = true := by decide

/-- CP9. -/
theorem test_ret_on_an_empty_stack :
    stopsWith (step (start 0x00EE)) .retEmptyStack = true := by decide

/-- CP12. -/
theorem test_jmp_off_V0 :
    nextIs (step ((start 0xBFFF).setReg 0 0xFF)) (fun t =>
      t.pc == 0x10FE) = true := by decide

/-- CP11. -/
theorem test_jmp_off_under_the_quirk :
    nextIs (step (((startCfg { Cfg.vipPreset with qJumpVx := true } 0xB210).setReg 0 0x04).setReg 2 0x10)) (fun t =>
      t.pc == 0x220) = true := by decide

/-- CP14. -/
theorem test_skip_eq_imm_taken :
    nextIs (step ((start 0x332A).setReg 3 0x2A)) (fun t =>
      t.pc == 0x204) = true := by decide

/-- CP15. -/
theorem test_skip_eq_imm_not_taken :
    nextIs (step ((start 0x332A).setReg 3 0x2B)) (fun t =>
      t.pc == 0x202) = true := by decide

/-- CP16. -/
theorem test_skip_ne_imm_not_taken :
    nextIs (step ((start 0x432A).setReg 3 0x2A)) (fun t =>
      t.pc == 0x202) = true := by decide

/-- CP17. -/
theorem test_skip_ne_imm_taken :
    nextIs (step (start 0x432A)) (fun t =>
      t.pc == 0x204) = true := by decide

/-- CP18. -/
theorem test_skip_eq_reg_taken :
    nextIs (step (((start 0x5120).setReg 1 7).setReg 2 7)) (fun t =>
      t.pc == 0x204) = true := by decide

/-- CP19. -/
theorem test_skip_eq_reg_not_taken :
    nextIs (step (((start 0x5120).setReg 1 7).setReg 2 8)) (fun t =>
      t.pc == 0x202) = true := by decide

/-- CP21. -/
theorem test_skip_ne_reg_taken :
    nextIs (step (((start 0x9120).setReg 1 7).setReg 2 8)) (fun t =>
      t.pc == 0x204) = true := by decide

/-- CP22. -/
theorem test_skip_ne_reg_not_taken :
    nextIs (step (((start 0x9120).setReg 1 7).setReg 2 7)) (fun t =>
      t.pc == 0x202) = true := by decide

/-- CP25. -/
theorem test_mov_imm :
    nextIs (step (start 0x6A2B)) (fun t =>
      t.reg 10 == 0x2B) = true := by decide

/-- CP28. -/
theorem test_add_imm_writes_no_flag :
    nextIs (step ((start 0x7101).setReg 1 0xFF)) (fun t =>
      t.reg 1 == 0 && t.reg 15 == 0) = true := by decide

/-- CP29. -/
theorem test_add_imm_to_VF :
    nextIs (step ((start 0x7F02).setReg 15 0xFF)) (fun t =>
      t.reg 15 == 1) = true := by decide

/-- CP30. -/
theorem test_ldi_clears_the_top_bits :
    nextIs (step ({ start 0xA2F0 with i := 0xFFFF })) (fun t =>
      t.i == 0x2F0) = true := by decide

/-! ### Fetch, vectors FE1 to FE6 -/

/-- FE1. -/
theorem test_fetch_at_the_last_word :
    nextIs (step (put { start 0x6001 with pc := 0xFFE } 0xFFE [0x60, 0x01])) (fun t =>
      t.reg 0 == 1 && t.pc == 0x1000) = true := by decide

/-- FE2. -/
theorem test_fetch_at_the_last_byte :
    faultsWith { start 0x6001 with pc := 0xFFF } .invalidAddress none = true := by decide

/-- FE5. -/
theorem test_fetch_does_not_wrap :
    faultsWith { start 0x6001 with pc := 0xFFFF } .invalidAddress none = true := by decide

/-- FE6. -/
theorem test_fetch_at_an_odd_address :
    nextIs (step (put { State.reset with pc := 0x201 } 0x201 [0x60, 0x01])) (fun t =>
      t.reg 0 == 1 && t.pc == 0x203) = true := by decide

/-- CP23. -/
theorem test_illegal_word :
    faultsWith (start 0x5121) .invalidInstruction (some 0x5121) = true := by decide

/-! ### The display family, vectors DR1 to DR30, GS1 to GS4 -/

/-- DR20. -/
theorem test_draw_clips_and_does_not_test_what_it_cut :
    nextIs (step (put { ((startCfg { Cfg.vipPreset with qVblankWait := false } 0xD011).setReg 0 60).setReg 15 9 with i := 0x300, fb := togglePixel blankFrame 0 0 } 0x300 [0x0F])) (fun t =>
      pixelAt t.fb 0 0 && !pixelAt t.fb 0 1 && t.reg 15 == 0) = true := by decide

/-- DR21. -/
theorem test_draw_collides_when_it_wraps :
    nextIs (step (put { ((startCfg { Cfg.vipPreset with qVblankWait := false, qClip := false } 0xD011).setReg 0 60).setReg 15 9 with i := 0x300, fb := togglePixel blankFrame 0 0 } 0x300 [0x0F])) (fun t =>
      !pixelAt t.fb 0 0 && pixelAt t.fb 0 1 && pixelAt t.fb 0 3 && t.reg 15 == 1) = true := by decide

/-- DR30. -/
theorem test_cls :
    nextIs (step ({ (start 0x00E0).setReg 15 3 with fb := togglePixel blankFrame 5 5, vblankReady := true })) (fun t =>
      !pixelAt t.fb 5 5 && t.reg 15 == 3 && t.vblankReady && t.pc == 0x202) = true := by decide

/-! ### Keypad and the blocking key read, vectors KY1 to KY7, WK1 to WK7 -/

/-- KY1. -/
theorem test_skip_key_down :
    nextIs (step (keypressOp 10 ((start 0xE59E).setReg 5 0x0A))) (fun t =>
      t.pc == 0x204) = true := by decide

/-- KY4. -/
theorem test_skip_key_masks :
    nextIs (step (keypressOp 10 ((startCfg { Cfg.vipPreset with idxPolicy := .mask4 } 0xE59E).setReg 5 0x1A))) (fun t =>
      t.pc == 0x204) = true := by decide

/-- KY5. -/
theorem test_skip_nkey_up :
    nextIs (step ((start 0xE5A1).setReg 5 0x0A)) (fun t =>
      t.pc == 0x204) = true := by decide

/-- KY6. -/
theorem test_skip_nkey_down :
    nextIs (step (keypressOp 10 ((start 0xE5A1).setReg 5 0x0A))) (fun t =>
      t.pc == 0x202) = true := by decide

/-- WK1, step 1. -/
theorem test_wait_key_first_presentation :
    nextIs (step (keyreleaseOp 2 ((start 0xF30A).setReg 3 0xEE))) (fun t =>
      t.keyWait && t.lastEdge == none && t.pc == 0x200 && t.cycles == 0 && t.reg 3 == 0xEE) = true := by decide

/-- WK7. -/
theorem test_wait_key_completes :
    nextIs (step ({ start 0xF30A with keyWait := true, lastEdge := some (.release 2) })) (fun t =>
      t.reg 3 == 2 && !t.keyWait && t.pc == 0x202 && t.cycles == 1) = true := by decide

/-! ### Timers, index, font, BCD, block transfer, vectors MS1 to MS11, SL1 to SL10 -/

/-- MS1. -/
theorem test_get_delay :
    nextIs (step ({ start 0xF207 with dt := 0x3C })) (fun t =>
      t.reg 2 == 0x3C && t.dt == 0x3C) = true := by decide

/-- MS2. -/
theorem test_set_delay :
    nextIs (step ((start 0xF215).setReg 2 0x3C)) (fun t =>
      t.dt == 0x3C && t.st == 0) = true := by decide

/-- MS3. -/
theorem test_set_sound :
    nextIs (step ((start 0xF218).setReg 2 0x05)) (fun t =>
      t.st == 5 && t.dt == 0) = true := by decide

/-- MS5. -/
theorem test_add_index_writes_no_flag :
    nextIs (step ({ ((start 0xF11E).setReg 1 1).setReg 15 7 with i := 0xFFF })) (fun t =>
      t.i == 0x1000 && t.reg 15 == 7) = true := by decide

/-- MS6. -/
theorem test_add_index_wraps :
    nextIs (step ({ (start 0xF11E).setReg 1 1 with i := 0xFFFF })) (fun t =>
      t.i == 0) = true := by decide

/-- MS7. -/
theorem test_font :
    nextIs (step ((start 0xF429).setReg 4 0x0A)) (fun t =>
      t.i == 0x82) = true := by decide

/-- MS11. -/
theorem test_font_masks :
    nextIs (step ((startCfg { Cfg.vipPreset with idxPolicy := .mask4 } 0xF429).setReg 4 0x1F)) (fun t =>
      t.i == 0x9B) = true := by decide

/-- V6, I=0FFD. -/
theorem test_bcd_at_the_edge :
    nextIs (step ({ (start 0xF133).setReg 1 0x7B with i := 0xFFD })) (fun t =>
      peek t 0xFFD 4 == [some 1, some 2, some 3, none] && t.i == 0xFFD) = true := by decide

/-- V6, I=0FFE. -/
theorem test_bcd_past_the_edge :
    faultsWith { ((start 0xF133).setReg 1 0x7B) with i := 0xFFE } .invalidAddress (some 0xF133) = true := by decide

/-- SL1. -/
theorem test_store :
    nextIs (step ({ ((((start 0xF255).setReg 0 0x11).setReg 1 0x22).setReg 2 0x33).setReg 3 0x44 with i := 0x300 })) (fun t =>
      peek t 0x300 4 == [some 0x11, some 0x22, some 0x33, some 0] && t.i == 0x303) = true := by decide

/-- SL6. -/
theorem test_store_past_the_edge :
    faultsWith { start 0xFF55 with i := 0xFF1 } .invalidAddress (some 0xFF55) = true := by decide

/-- SL4. -/
theorem test_load :
    nextIs (step (put { (startCfg { Cfg.vipPreset with qIndexInc := false } 0xF165).setReg 2 0x77 with i := 0x300 } 0x300 [0xAA, 0xBB, 0xCC])) (fun t =>
      t.reg 0 == 0xAA && t.reg 1 == 0xBB && t.reg 2 == 0x77 && t.i == 0x300) = true := by decide

/-- SL10. -/
theorem test_load_reads_the_font :
    nextIs (step { startCfg { Cfg.vipPreset with qIndexInc := false } 0xFF65 with i := 0x50 }) (fun t =>
      t.v.toList == [0xF0, 0x90, 0x90, 0x90, 0xF0, 0x20, 0x60, 0x20, 0x20, 0x70, 0xF0, 0x10, 0xF0, 0x80,
        0xF0, 0xF0]) = true := by decide

/-! ### The host operations, vectors V8, V9 -/

/-- V8. -/
theorem test_decrement_timers :
    (decrementTimersOp { State.reset with dt := 0, st := 3 }).dt = 0 ∧
    (decrementTimersOp { State.reset with dt := 0, st := 3 }).st = 2 := by decide

/-- V8. -/
theorem test_load_rom :
    peek (loadRomOp [0x12, 0x00] (start 0x6001)) 0x200 3 = [some 0x12, some 0x00, some 0x00] := by decide

/-- R231, R76. -/
theorem test_reset_copies_the_font :
    peek State.reset 0x4F 7 = [some 0x00, some 0xF0, some 0x90, some 0x90, some 0x90, some 0xF0, some 0x20] ∧
    peek State.reset 0x9E 3 = [some 0x80, some 0x80, some 0x00] := by decide

/-- R76, U10: another FONT_DATA. -/
theorem test_reset_copies_the_font_of_the_build :
    peek (resetOp { start 0x6001 with cfg := { Cfg.vipPreset with fontData := Vector.replicate 80 0x3C } }) 0x4F 2 =
      [some 0x00, some 0x3C] ∧
    peek (State.resetWith { Cfg.vipPreset with fontData := Vector.replicate 80 0x3C }) 0x9F 2 = [some 0x3C, some 0x00] := by decide

/-- V8. -/
theorem test_keypress :
    (keypressOp 3 State.reset).keyDown 3 = true ∧ (keypressOp 3 State.reset).lastEdge = some (.press 3) := by decide

/-- V8. -/
theorem test_keyrelease :
    (keyreleaseOp 3 (keypressOp 3 State.reset)).keyDown 3 = false ∧
    (keyreleaseOp 3 (keypressOp 3 State.reset)).lastEdge = some (.release 3) := by decide

/-- R237. -/
theorem test_vblank_trigger :
    (vblankTriggerOp State.reset).vblankReady = true := by decide

/-- V8, after DR4 and MS3. -/
theorem test_read_outs :
    (outputBuffer { State.reset with fb := togglePixel blankFrame 3 10 })[202]? = some 0x01 ∧
    hostReply .getSoundTimer { State.reset with st := 5 } = .sound 5 := by decide

/-- V8. -/
theorem test_reset_of_a_faulted_core :
    resetOp (State.latchFault { start 0x2300 with sp := 16 } .stackOverflow none) = State.reset := by decide

/-- V9. -/
theorem test_faulted_core_does_not_step :
    nextIs (step ((start 0x6001).latchFault .stackOverflow none))
      (fun t => decide (t = (start 0x6001).latchFault .stackOverflow none)) = true := by decide

/-- R241. -/
theorem test_command_port :
    nextIs (commandPort true 4 0 { State.reset with dt := 2 }) (fun t => t.dt == 1) = true ∧
    nextIs (commandPort true 6 0 State.reset) (fun t => decide (t = State.reset)) = true ∧
    heldOutput { State.reset with keyWait := true } = true ∧
    faultCode (State.reset.latchFault .stackOverflow none) = 3 := by decide

/-- R241, R232: two bytes through the port are load_rom of the two, and a byte past the top leaves no program. -/
theorem test_load_port :
    (loadPort true false 0x00 (loadPort true true 0x12 0 (start 0x6001)).2.1
      (loadPort true true 0x12 0 (start 0x6001)).1).1 = loadRomOp [0x12, 0x00] (start 0x6001) ∧
    loadPort true false 0x00 0x1000 (start 0x6001) = (State.reset, 0x1000, true) := by decide

/-! ### RANDOM, whatever is drawn: vectors CP33, CP34 -/

/-- CP33: the mask 0 gives 0 and the draw is consumed. -/
theorem test_random_mask_zero (s : State) :
    ∃ t, exec (.random 3 0x00) s = .next t ∧ t.reg 3 = 0 ∧ t.randomDraws = s.randomDraws + 1 :=
  ⟨_, rfl, (State.reg_setReg_self s.advance 3 _).trans (by simp), rfl⟩

/-- CP34: the mask 0xFF gives the draw. -/
theorem test_random_mask_ones (s : State) :
    ∃ t, exec (.random 3 0xFF) s = .next t ∧ t.reg 3 = Config.randomByte s.randomDraws :=
  ⟨_, rfl, (State.reg_setReg_self s.advance 3 _).trans (BitVec.and_allOnes (w := 8))⟩

/-! ### Witnesses: for each statement with hypotheses, values that meet them, clause by clause and at the
boundaries of each clause -/

theorem witness_DecodeOfEncodeIsTheInstruction :
    (Instr.jmpOff 0xFFF 15).wf = true ∧ Instr.cls.wf = true := by decide

theorem witness_EncodeOfDecodeIsTheWord : decodeWord 0xBFFF = some (.jmpOff 0xFFF 15) := by decide

theorem witness_DecodeFollowsTheOpcodeMap :
    (⟨"ADD", 0xF00F, 0x8004⟩ : OpcodeRow) ∈ opcodeMap ∧ 0x8124#16 &&& 0xF00F = 0x8004 ∧
      (decodeWord 0x8124).map Instr.mnemonic = some "ADD" := by decide

/-- One word of each item (a) to (f), and the legal words beside them. -/
theorem witness_IllegalWordsAreExactlyTheListedOnes :
    (IllegalWord 0x0000 ∧ IllegalWord 0x5001 ∧ IllegalWord 0x800F ∧ IllegalWord 0x9001 ∧
      IllegalWord 0xE0A0 ∧ IllegalWord 0xF066) ∧
    ¬ IllegalWord 0x00E0 ∧ ¬ IllegalWord 0x5000 ∧ ¬ IllegalWord 0x800E ∧ ¬ IllegalWord 0x9000 ∧
      ¬ IllegalWord 0xE0A1 ∧ ¬ IllegalWord 0xF065 := by
  refine ⟨⟨?_, ?_, ?_, ?_, ?_, ?_⟩, ?_, ?_, ?_, ?_, ?_, ?_⟩ <;> (unfold IllegalWord; decide)

/-- A state at the last address a fetch can succeed at. -/
def lastWord : State := put { State.reset with pc := 0xFFE } 0xFFE [0x81, 0x24]

theorem witness_StepRunsTheInstructionAtPc :
    lastWord.fault = none ∧ (Instr.add 1 2).wf = true ∧
      memRead lastWord.mem lastWord.pc.toNat = some (highByte (encode (.add 1 2))) ∧
      memRead lastWord.mem (lastWord.pc.toNat + 1) = some (lowByte (encode (.add 1 2))) := by decide

theorem witness_FetchIsTwoByteReadsBigEndian :
    fetchWord lastWord = some 0x8124 ∧ fetchWord { lastWord with pc := 0xFFF } = none := by decide

theorem witness_FetchFaultsExactlyAtTheTopOfTheBank :
    ({ lastWord with pc := 0xFFF }).fault = none ∧
      0x0FFF ≤ ({ lastWord with pc := 0xFFF }).pc.toNat ∧ ¬ 0x0FFF ≤ lastWord.pc.toNat := by decide

theorem witness_InvalidInstructionIsRaisedByIllegalWordsOnly :
    (start 0x5121).fault = none ∧ fetchWord (start 0x5121) = some 0x5121 ∧ IllegalWord 0x5121 ∧
      ∃ t r, step (start 0x5121) = .next t ∧ t.fault = some r ∧ r.kind = .invalidInstruction :=
  ⟨rfl, by decide, by unfold IllegalWord; decide, _, _, rfl, rfl, rfl⟩

/-- Both directions at depth 16, and depth 15 beside it. -/
theorem witness_StackOverflowIsRaisedByCallAtDepth16Only :
    ({ start 0x2300 with sp := 16 }).fault = none ∧
    presented { start 0x2300 with sp := 16 } = some (.call 0x300) ∧
    faultsWith { start 0x2300 with sp := 16 } .stackOverflow (some 0x2300) = true ∧
    nextIs (step { start 0x2300 with sp := 15 }) (fun t => t.fault.isNone && t.sp == 16) = true := by
  decide

/-- Each clause at the first address that faults, and the last that does not. -/
theorem witness_InvalidAddressIsRaisedExactlyAsListed :
    (faultsWith { lastWord with pc := 0xFFF } .invalidAddress none = true ∧
      nextIs (step lastWord) (fun t => t.fault.isNone) = true) ∧
    (faultsWith { start 0xD01F with i := 0xFF2 } .invalidAddress (some 0xD01F) = true ∧
      nextIs (step { start 0xD01F with i := 0xFF1 }) (fun t => t.fault.isNone) = true ∧
      nextIs (step { start 0xD010 with i := 0xFFFF }) (fun t => t.fault.isNone) = true) ∧
    (faultsWith { start 0xF133 with i := 0xFFE } .invalidAddress (some 0xF133) = true ∧
      nextIs (step { start 0xF133 with i := 0xFFD }) (fun t => t.fault.isNone) = true) ∧
    (faultsWith { start 0xFF55 with i := 0xFF1 } .invalidAddress (some 0xFF55) = true ∧
      nextIs (step { start 0xFF55 with i := 0xFF0 }) (fun t => t.fault.isNone && t.i == 0x1000) = true) ∧
    (faultsWith { start 0xF165 with i := 0xFFF } .invalidAddress (some 0xF165) = true ∧
      nextIs (step { start 0xF165 with i := 0xFFE }) (fun t => t.fault.isNone) = true) := by decide

theorem witness_FaultsArePrecise :
    ∃ t, step (start 0x5121) = .next t ∧ FaultedStep (start 0x5121) t :=
  ⟨_, rfl, rfl, by decide⟩

theorem witness_FaultedCoreIsDeadUntilReset :
    ((start 0x6001).latchFault .stackOverflow none).fault = some ⟨.stackOverflow, 0x200, none⟩ ∧
      ∃ t, (Event.host (.keypress 1)).outcome ((start 0x6001).latchFault .stackOverflow none) = .next t :=
  ⟨rfl, _, rfl⟩

/-- A state of each outcome: retire, hold, fault, and the two that have no next state. -/
theorem witness_EveryStepHasOneOfFourOutcomes :
    (∃ t, step (start 0x1234) = .next t ∧ RetiredStep (start 0x1234) t) ∧
    (∃ t, step (start 0xF30A) = .next t ∧ HeldStep (start 0xF30A) t) ∧
    (∃ t, step (start 0x5121) = .next t ∧ FaultedStep (start 0x5121) t) ∧
    (step (start 0x00EE) = .fault .retEmptyStack ∧ presented (start 0x00EE) = some .ret ∧
      (start 0x00EE).sp.val = 0) ∧
    (step ((start 0xE59E).setReg 5 16) = .refused .indexAboveFifteen ∧
      presented ((start 0xE59E).setReg 5 16) = some (.skipKey 5)) :=
  ⟨⟨_, rfl, rfl, rfl, rfl⟩, ⟨_, rfl, rfl, rfl, rfl⟩, ⟨_, rfl, rfl, by decide⟩,
    ⟨rfl, by decide, by decide⟩, rfl, by decide⟩

theorem witness_HeldStepChangesOnlyTheWaitState :
    (∃ t, step (start 0xF30A) = .next t ∧ HeldStep (start 0xF30A) t) ∧
    (∃ t, step (start 0xD011) = .next t ∧ HeldStep (start 0xD011) t) :=
  ⟨⟨_, rfl, rfl, rfl, rfl⟩, _, rfl, rfl, rfl, rfl⟩

/-- A core that waits for a key. -/
def keyWaiting : State := { start 0xF30A with keyWait := true }

/-- A core that holds a sprite: GS1 after its first step. -/
def spriteWaiting : State :=
  { put { (start 0xD011) with i := 0x300 } 0x300 [0xFF] with
    dataReady := true, spN := 1, spBuf := State.reset.spBuf.set 0 0xFF }

theorem witness_HeldStepOfAWaitInProgressChangesNothing :
    (∃ t, step keyWaiting = .next t ∧ HeldStep keyWaiting t ∧ keyWaiting.keyWait = true ∧
      presented keyWaiting = some (.waitKey 3)) ∧
    (∃ t, step spriteWaiting = .next t ∧ HeldStep spriteWaiting t ∧ spriteWaiting.dataReady = true ∧
      presented spriteWaiting = some (.draw 0 1 1)) :=
  ⟨⟨_, rfl, ⟨rfl, rfl, rfl⟩, rfl, by decide⟩, _, rfl, ⟨rfl, rfl, rfl⟩, rfl, by decide⟩

/-- The invariant holds of a core in each wait and of a faulted core, and such a core has events. -/
theorem witness_EveryEventKeepsTheWaitInvariant :
    Inv keyWaiting ∧ Inv spriteWaiting ∧ Inv ((start 0x5121).latchFault .invalidInstruction none) ∧
      (∃ t, Event.step.outcome keyWaiting = .next t) ∧
      ∃ t, (Event.host .vblankTrigger).outcome spriteWaiting = .next t :=
  ⟨⟨by decide, fun _ => ⟨3, by decide⟩, fun h => absurd h (by decide), fun _ h => by cases h⟩,
    ⟨by decide, fun h => absurd h (by decide),
      fun _ => ⟨0, 1, 1, by decide, by decide, by decide, by decide, by decide⟩, fun _ h => by cases h⟩,
    ⟨by decide, fun h => absurd h (by decide), fun h => absurd h (by decide),
      fun _ h => by cases h; rfl⟩, ⟨_, rfl⟩, _, rfl⟩

theorem witness_EveryEventKeepsMemoryCanonical :
    (start 0xF133).mem.wf = true ∧ (start 0xF133).mem.cells.head? = some (0x50, 0xF0) ∧
      ∃ t, Event.step.outcome (start 0xF133) = .next t :=
  ⟨by decide, by decide, _, rfl⟩

/-- A core loaded with a WAIT_KEY is reached from reset, and so is that core waiting, which an event keeps. -/
theorem witness_ReachableStatesMeetTheListedClauses :
    ∃ s, Reachable s ∧ s.keyWait = true ∧ presented s = some (.waitKey 3) ∧
      ∃ t, Event.step.outcome s = .next t ∧ t.keyWait = true :=
  ⟨_, .event .step (.event (.host (.loadRom [0xF3, 0x0A])) (.reset Cfg.vipPreset) rfl) rfl,
    by decide, by decide, _, rfl, by decide⟩

/-- A core loaded with a DRAW is reached from reset, and so is that core holding a sprite. -/
theorem witness_ReachableStatesMeetTheListedClauses_draw :
    ∃ s, Reachable s ∧ s.dataReady = true ∧ presented s = some (.draw 0 1 1) ∧
      ∃ t, Event.step.outcome s = .next t ∧ t.dataReady = true :=
  ⟨_, .event .step (.event (.host (.loadRom [0xD0, 0x11])) (.reset Cfg.vipPreset) rfl) rfl,
    by decide, by decide, _, rfl, by decide⟩

/-- A faulted core is reached from reset. -/
theorem witness_ReachableStatesMeetTheListedClauses_fault :
    ∃ s, Reachable s ∧ s.fault ≠ none :=
  ⟨_, .event .step (.reset Cfg.vipPreset) rfl, by decide⟩

theorem witness_StepWritesOnlyWhatTheStateRulesList :
    ∃ t, step (start 0x6A2B) = .next t ∧ ¬ t.v = (start 0x6A2B).v :=
  ⟨_, rfl, by decide⟩

theorem witness_VfIsWrittenOnlyAsFlagOrDestination :
    ∃ t, step (start 0x6F77) = .next t ∧ ¬ t.reg 15 = (start 0x6F77).reg 15 :=
  ⟨_, rfl, by decide⟩

theorem witness_MemoryReadsWhatWasLastWritten :
    (start 0x6001).mem.wf = true ∧ 0xFFF < Config.memSize ∧ Config.memSize ≤ 0x1000 ∧
      (memWrite (start 0x6001).mem 0xFFF 0xAA).isSome = true ∧
      memWrite (start 0x6001).mem 0x1000 0xAA = none := by decide

/-- The premises are met by the reset memory, and by a memory and the same one written and written back. -/
theorem witness_CanonicalMemoriesThatReadAlikeAreEqual :
    State.reset.mem.wf = true ∧ (⟨[(0x300, 7)]⟩ : Memory).wf = true ∧
      (((⟨[(0x300, 7)]⟩ : Memory).set 0x400 1).set 0x400 0).wf = true ∧
      ∀ a, memRead ⟨[(0x300, 7)]⟩ a = memRead (((⟨[(0x300, 7)]⟩ : Memory).set 0x400 1).set 0x400 0) a :=
  ⟨by decide, by decide, by decide, fun _ => rfl⟩

/-- Depth 0, 1 and 16. -/
theorem witness_RetPopsTheStackIntoPc :
    ({ State.reset with sp := 0 }).sp.val = 0 ∧ ({ State.reset with sp := 1 }).sp.val = 0 + 1 ∧
      ({ State.reset with sp := 16 }).sp.val = 15 + 1 := by decide

/-- Depth 16, 15 and 0. -/
theorem witness_CallPushesOrRaisesStackOverflow :
    ({ State.reset with sp := 16 }).sp.val = 16 ∧ ({ State.reset with sp := 15 }).sp.val < 16 ∧
      State.reset.sp.val < 16 := by decide

theorem witness_ShiftsMoveOneBitIntoTheFlag :
    (0x81 : Byte) = if ((start 0x8126).setReg 2 0x81).cfg.qShiftIgnoresY
      then ((start 0x8126).setReg 2 0x81).reg 1 else ((start 0x8126).setReg 2 0x81).reg 2 := by decide

/-- Both clauses: a sprite latched, and none latched with rows up to the top of the bank or no rows. -/
theorem witness_DrawLatchesAndHoldsWhileTheGateIsShut :
    (spriteWaiting.cfg.qVblankWait = true ∧ spriteWaiting.vblankReady = false ∧
      spriteWaiting.dataReady = true) ∧
    ((start 0xD01F).cfg.qVblankWait = true ∧ (start 0xD01F).vblankReady = false ∧
      (start 0xD01F).dataReady = false ∧ (0 : Nibble).toNat = 0 ∧
      ({ start 0xD01F with i := 0xFF1 }).i.toNat + (15 : Nibble).toNat ≤ Config.memSize) ∧
    nextIs (step { start 0xD01F with i := 0xFF1 }) (fun t => t.dataReady && t.spN == 15) = true := by
  decide

/-- The gate open by the configuration and by the latch; a sprite latched, no rows, and rows up to the
top of the bank. -/
theorem witness_DrawTogglesExactlyTheCoveredPixels :
    ({ Cfg.vipPreset with qVblankWait := false }).qVblankWait = false ∧
    (vblankTriggerOp spriteWaiting).vblankReady = true ∧
    (vblankTriggerOp spriteWaiting).dataReady = true ∧ (0 : Nibble).toNat = 0 ∧
    ({ start 0xD012 with i := 0xFFE }).i.toNat + (2 : Nibble).toNat ≤ Config.memSize ∧
    nextIs (step (vblankTriggerOp { start 0xD012 with i := 0xFFE })) (fun t => t.cycles == 1) = true := by
  decide

/-- Both clauses, the first at the first address that faults. -/
theorem witness_DrawFaultsOnlyWhenItLatchesOutsideTheBank :
    ((start 0xD01F).dataReady = false ∧ 0 < (15 : Nibble).toNat ∧
      Config.memSize ≤ ({ start 0xD01F with i := 0xFF2 }).i.toNat + (15 : Nibble).toNat - 1) ∧
    (spriteWaiting.fault = none ∧ spriteWaiting.dataReady = true) ∧ (0 : Nibble).toNat = 0 ∧
    ({ start 0xD01F with i := 0xFF1 }).i.toNat + (15 : Nibble).toNat ≤ Config.memSize := by decide

theorem witness_VblankCompletesAPendingDraw :
    spriteWaiting.fault = none ∧ presented spriteWaiting = some (.draw 0 1 1) ∧
      spriteWaiting.dataReady = true := by decide

/-- 15 has a meaning, 16 none under `refuse`, 255 one under `mask4`. -/
theorem witness_KeySkipsTestTheLiveKeyFlag :
    (((start 0xE59E).setReg 5 15).reg 5).toNat ≤ 15 ∧
    (15 < (((start 0xE59E).setReg 5 16).reg 5).toNat ∧ (start 0xE59E).cfg.idxPolicy = .refuse) ∧
    (15 < (((start 0xE59E).setReg 5 255).reg 5).toNat ∧
      ({ Cfg.vipPreset with idxPolicy := .mask4 }).idxPolicy = .mask4) := by decide

/-- Every transition of the machine. -/
theorem witness_WaitKeyIsATwoStateMachine :
    (start 0xF30A).keyWait = false ∧
    (keyWaiting.keyWait = true ∧ ∀ k, keyWaiting.lastEdge ≠ some (.release k)) ∧
    ((keypressOp 5 keyWaiting).keyWait = true ∧
      ∀ k, (keypressOp 5 keyWaiting).lastEdge ≠ some (.release k)) ∧
    ((keyreleaseOp 5 keyWaiting).keyWait = true ∧
      (keyreleaseOp 5 keyWaiting).lastEdge = some (.release 5)) ∧
    (∃ t, Event.step.outcome (keyreleaseOp 5 keyWaiting) = .next t ∧ t.keyWait = false) ∧
    (∃ t, (Event.host .reset).outcome keyWaiting = .next t ∧ t.keyWait = false) ∧
    ∃ t, (Event.host (.loadRom [])).outcome keyWaiting = .next t ∧ t.keyWait = false :=
  ⟨rfl, ⟨rfl, fun k h => by cases h⟩, ⟨rfl, fun k h => by cases h⟩, ⟨rfl, rfl⟩, ⟨_, rfl, rfl⟩,
    ⟨_, rfl, rfl⟩, _, rfl, rfl⟩

theorem witness_WaitKeyStoresTheReleasedKey :
    (keyreleaseOp 15 keyWaiting).keyWait = true ∧
      (keyreleaseOp 15 keyWaiting).lastEdge = some (.release 15) := by decide

theorem witness_FontComputesTheGlyphAddress :
    (((start 0xF429).setReg 4 15).reg 4).toNat ≤ 15 ∧
    (15 < (((start 0xF429).setReg 4 16).reg 4).toNat ∧ (start 0xF429).cfg.idxPolicy = .refuse) ∧
    ({ Cfg.vipPreset with idxPolicy := .mask4 }).idxPolicy = .mask4 := by decide

/-- The last address that completes and the first that faults. -/
theorem witness_BcdStoresTheThreeDecimalDigits :
    (start 0xF133).mem.wf = true ∧ ({ start 0xF133 with i := 0xFFD }).i.toNat + 2 < Config.memSize ∧
      Config.memSize ≤ ({ start 0xF133 with i := 0xFFE }).i.toNat + 2 := by decide

theorem witness_StoreWritesTheRegisterBlock :
    (start 0xFF55).mem.wf = true ∧
      ({ start 0xFF55 with i := 0xFF0 }).i.toNat + (15 : Nibble).toNat < Config.memSize ∧
      Config.memSize ≤ ({ start 0xFF55 with i := 0xFF1 }).i.toNat + (15 : Nibble).toNat := by decide

theorem witness_LoadReadsTheRegisterBlock :
    ({ start 0xF065 with i := 0xFFF }).i.toNat + (0 : Nibble).toNat < Config.memSize ∧
      Config.memSize ≤ ({ start 0xF065 with i := 0x1000 }).i.toNat + (0 : Nibble).toNat := by decide

/-- RT1: three registers stored at 0x300, then zeroed registers and the same index register. -/
theorem witness_StoreThenLoadRestoresTheRegisters :
    ∃ s t u : State, s.mem.wf = true ∧ s.i.toNat + (2 : Nibble).toNat < Config.memSize ∧
      exec (.store 2) s = .next t ∧ u.mem = t.mem ∧ u.i = s.i ∧ u.cfg = s.cfg ∧ u.reg 0 ≠ s.reg 0 :=
  ⟨{ (start 0xF255).setReg 0 0x11 with i := 0x300 }, _,
    { State.reset with mem := (put (start 0xF255) 0x300 [0x11, 0, 0]).mem, i := 0x300 },
    by decide, by decide, rfl, by decide, rfl, rfl, by decide⟩

/-- The longest program that fits and the shortest that does not. -/
theorem witness_LoadRomResetsThenPlacesTheProgram :
    (List.replicate 3584 (0x12 : Byte)).length ≤ 3584 ∧
      3584 < (List.replicate 3585 (0x12 : Byte)).length := by
  rw [List.length_replicate, List.length_replicate]; decide

end Sys2Proof.Tests
end

section
namespace Sys2Proof.Machine

/-! ## The fetch as two byte reads (R66) -/

/-- A word is its two bytes: the big-endian join is injective in each byte. -/
theorem wordOfBytes_eq_iff {hi lo : Byte} {w : Word} :
    wordOfBytes hi lo = w ↔ hi = highByte w ∧ lo = lowByte w := by
  constructor
  · rintro rfl
    exact ⟨(highByte_wordOfBytes hi lo).symm, (lowByte_wordOfBytes hi lo).symm⟩
  · rintro ⟨rfl, rfl⟩
    exact wordOfBytes_high_low w

/-- A word read succeeds exactly when both of its byte reads do, with the high byte at the lower address. -/
theorem memReadWord_eq_some {m : Memory} {a : Nat} {w : Word} :
    memReadWord m a = some w ↔
      memRead m a = some (highByte w) ∧ memRead m (a + 1) = some (lowByte w) := by
  unfold memReadWord
  cases memRead m a with
  | none => simp
  | some hi =>
    cases memRead m (a + 1) with
    | none => simp
    | some lo => simp [wordOfBytes_eq_iff]

/-- The fetch's ceiling check refuses no address that the bound check of its first byte read lets through. -/
theorem fetchWord_eq_memReadWord (s : State) : fetchWord s = memReadWord s.mem s.pc.toNat := by
  unfold fetchWord
  split
  · next hpc => simp [memReadWord, memRead_of_le hpc]
  · rfl

/-- Settles O7: the fetch is the word read at `pc`, and a word read is its two byte reads. -/
theorem fetchIsTwoByteReadsBigEndian : Obligations.FetchIsTwoByteReadsBigEndian := by
  intro s w
  rw [fetchWord_eq_memReadWord]
  exact memReadWord_eq_some

end Sys2Proof.Machine
end

section
namespace Sys2Proof.Machine

/-! ## Holds (R124) -/

/-- A step that neither starts from a fault nor raises one fetched and decoded, and is the execution of
the instruction presented. -/
theorem exec_of_step_without_fault {s t : State} (h : step s = .next t) (hs : s.fault = none)
    (ht : t.fault = none) : ∃ i, presented s = some i ∧ exec i s = .next t := by
  obtain ⟨r, hr, -⟩ | ⟨-, -, he⟩ | ⟨w, -, -, -, he⟩ | ⟨w, i, -, -, -, hp, he⟩ := step_cases s
  · simp [hs] at hr
  · obtain rfl : s.latchFault .invalidAddress none = t := by simpa [he] using h
    simp at ht
  · obtain rfl : s.latchFault .invalidInstruction (some w) = t := by simpa [he] using h
    simp at ht
  · exact ⟨i, hp, he ▸ h⟩

/-- An execution that neither faults nor counts a cycle is a hold: of the ways an execution ends, a
retired one counts and a faulted one sets the latch. -/
theorem exec_held {i : Instr} {s t : State} (h : exec i s = .next t) (ht : t.fault = none)
    (hc : t.cycles = s.cycles) :
    ((∃ x, i = .waitKey x) ∨ (s.cfg.qVblankWait = true ∧ ∃ x y n, i = .draw x y n)) ∧
      t = { s with
        keyWait := t.keyWait, lastEdge := t.lastEdge, dataReady := t.dataReady,
        spX := t.spX, spY := t.spY, spN := t.spN, spBuf := t.spBuf } := by
  have hends : Ends i s (.next t) := h ▸ exec_ends i s
  cases hends with
  | retired _ hcount _ _ => omega
  | held _ hi hframe _ => exact ⟨hi, hframe⟩
  | faulted k _ => simp at ht

/-- Settles O15: a held step is an execution that neither faults nor counts, hence a hold of the
instruction presented. -/
theorem heldStepChangesOnlyTheWaitState : Obligations.HeldStepChangesOnlyTheWaitState := by
  rintro s t hstep ⟨hs, ht, hc⟩
  obtain ⟨i, hp, he⟩ := exec_of_step_without_fault hstep hs ht
  obtain ⟨hi, hframe⟩ := exec_held he ht hc
  refine ⟨?_, hframe⟩
  rw [hp]
  simpa only [Option.some.injEq] using hi

end Sys2Proof.Machine
end

section
namespace Sys2Proof.Machine

/-! ## Jumps, skips and immediate loads (R182 to R187, R189) -/

/-- An update of `V`, `pc`, `I` and `cycles`, whatever their new values, leaves the rest alone. -/
theorem RestUnchanged.of_update (s : State) (v : Vector Byte 16) (pc i : Word) (c : Nat) :
    RestUnchanged s { s with v := v, pc := pc, i := i, cycles := c } :=
  .of_fields rfl rfl rfl rfl rfl rfl rfl rfl rfl ⟨rfl, rfl, rfl, rfl, rfl, rfl⟩ ⟨rfl, rfl, rfl⟩ rfl

/-- The 12-bit address as a word is the same number, so its top four bits are 0. -/
theorem toNat_toWord (a : Addr) : a.toWord.toNat = a.toNat :=
  BitVec.toNat_setWidth_of_le (by decide)

/-- A skip that retires on a decided condition moves `pc` as that condition says. -/
theorem retire_skipIf_result (s : State) (c : Prop) [Decidable c] :
    ∃ t, retire (s.advance.skipIf (decide c)) = .next t ∧ SkipResult s t c :=
  ⟨_, rfl, skipResult_skipIf s decide_eq_true_iff⟩

/-- Settles O28: JMP retires the state with its target in `pc`. -/
theorem jmpSetsPc : Obligations.JmpSetsPc := by
  intro s nnn
  have hexec : exec (.jmp nnn) s = retire (s.setPc nnn.toWord) := rfl
  exact ⟨_, hexec, toNat_toWord nnn, rfl, fun _ _ => rfl, rfl, .of_update s s.v _ s.i _⟩

/-- Settles O30: each of the four is a retired skip on its own condition. -/
theorem cpuSkipsAdvancePcByFourOrTwo : Obligations.CpuSkipsAdvancePcByFourOrTwo := fun s x y nn =>
  ⟨retire_skipIf_result s (s.reg x = nn), retire_skipIf_result s (s.reg x ≠ nn),
    retire_skipIf_result s (s.reg x = s.reg y), retire_skipIf_result s (s.reg x ≠ s.reg y)⟩

/-- Settles O31: MOV_IMM retires the register load of its immediate. -/
theorem movImmLoadsTheImmediate : Obligations.MovImmLoadsTheImmediate := by
  intro s x nn
  have hexec : exec (.movImm x nn) s = retire (s.advance.setReg x nn) := rfl
  exact ⟨_, hexec, loadsRegister_setReg s x nn, .of_update s _ _ s.i _⟩

/-- Settles O33: LDI retires the next instruction's state with its immediate in `I`. -/
theorem ldiLoadsTheIndexRegister : Obligations.LdiLoadsTheIndexRegister := by
  intro s nnn
  have hexec : exec (.ldi nnn) s = retire (s.advance.setI nnn.toWord) := rfl
  exact ⟨_, hexec, toNat_toWord nnn, rfl, rfl, fun _ _ => rfl, .of_update s s.v _ _ _⟩

end Sys2Proof.Machine
end

section
namespace Sys2Proof.Machine

/-! ## The timer transfers (R202, R204, R205) -/

/-- What a retired transfer into a timer leaves: the timers as given, the next instruction. -/
def State.retiredWithTimers (s : State) (dt st : Byte) : State :=
  { s.advance with dt := dt, st := st, cycles := s.cycles + 1 }

theorem exec_setDelay (x : Nibble) (s : State) :
    exec (.setDelay x) s = .next (s.retiredWithTimers (s.reg x) s.st) := rfl

theorem exec_setSound (x : Nibble) (s : State) :
    exec (.setSound x) s = .next (s.retiredWithTimers s.dt (s.reg x)) := rfl

/-- Whatever values the timers take, only they, `pc` and `cycles` change. -/
theorem retiredWithTimers_frame (s : State) (dt st : Byte) :
    (s.retiredWithTimers dt st).pc = s.pc + 2 ∧
      (s.retiredWithTimers dt st).cycles = s.cycles + 1 ∧
      SameRegsBut [] s (s.retiredWithTimers dt st) ∧ (s.retiredWithTimers dt st).i = s.i ∧
      SameMemory s (s.retiredWithTimers dt st) ∧ SameStack s (s.retiredWithTimers dt st) ∧
      SameKeypad s (s.retiredWithTimers dt st) ∧ SameDisplay s (s.retiredWithTimers dt st) ∧
      SameControl s (s.retiredWithTimers dt st) ∧
      (s.retiredWithTimers dt st).randomDraws = s.randomDraws :=
  ⟨rfl, rfl, fun _ _ => rfl, rfl, fun _ => rfl, ⟨rfl, rfl⟩, ⟨rfl, rfl, rfl⟩,
    ⟨rfl, rfl, rfl, rfl, rfl, rfl, rfl⟩, ⟨rfl, rfl, rfl⟩, rfl⟩

/-- Settles O48: GET_DELAY is a register load of `dt`, the other two write one timer each. -/
theorem timerInstructionsMoveOneByte : Obligations.TimerInstructionsMoveOneByte := by
  intro s x
  have hget : exec (.getDelay x) s = retire (s.advance.setReg x s.dt) := rfl
  refine ⟨?_, ?_, ?_⟩
  · exact ⟨_, hget, loadsRegister_setReg s x s.dt, .of_update s _ _ s.i _⟩
  · exact ⟨_, exec_setDelay x s, rfl, rfl, retiredWithTimers_frame s _ _⟩
  · exact ⟨_, exec_setSound x s, rfl, rfl, retiredWithTimers_frame s _ _⟩

end Sys2Proof.Machine
end

section
namespace Sys2Proof.Machine

/-! ## The keypad under an execution (R27, R28): only WAIT_KEY touches it -/

/-- An outcome whose next state, if it has one, holds the keypad of `s`. -/
def KeepsKeypad (s : State) (o : Host.Outcome State Fault Refusal) : Prop :=
  ∀ t, o = .next t → SameKeypad s t

theorem keepsKeypad_next {s u : State} (h : SameKeypad s u) : KeepsKeypad s (.next u) := by
  rintro t ⟨⟩
  exact h

theorem keepsKeypad_retire {s u : State} (h : SameKeypad s u) : KeepsKeypad s (retire u) :=
  keepsKeypad_next h

theorem keepsKeypad_raiseFault (s : State) (k : FaultKind) (w : Option Word) :
    KeepsKeypad s (raiseFault s k w) :=
  keepsKeypad_next ⟨rfl, rfl, rfl⟩

theorem keepsKeypad_aluStep (s : State) (x : Nibble) (r : Byte) (f : Option Bool) :
    KeepsKeypad s (aluStep s x r f) := by
  cases f <;> exact keepsKeypad_retire ⟨rfl, rfl, rfl⟩

theorem keepsKeypad_skipIf (s : State) (c : Bool) :
    KeepsKeypad s (retire (s.advance.skipIf c)) :=
  keepsKeypad_retire ⟨by simp, by simp, by simp⟩

/-- Neither a hold at the display's gate nor a render touches the keypad. -/
theorem keepsKeypad_gateAndRender (s0 : State) {s u : State} (h : SameKeypad s u) :
    KeepsKeypad s (gateAndRender s0 u) := by
  unfold gateAndRender
  split
  · exact keepsKeypad_next h
  · exact keepsKeypad_retire h

/-- Only WAIT_KEY's own execution can change the keypad. -/
theorem exec_keepsKeypad {i : Instr} (s : State) (hi : ∀ x, i ≠ .waitKey x) :
    KeepsKeypad s (exec i s) := by
  cases i
  case waitKey x => exact absurd rfl (hi x)
  case mov | or | and | xor | add | sub | shr | rsub | shl => exact keepsKeypad_aluStep s _ _ _
  case skipEqImm | skipNeImm | skipEqReg | skipNeReg => exact keepsKeypad_skipIf s _
  case cls | jmp | jmpOff | movImm | addImm | ldi | random | getDelay | setDelay | setSound
      | addIndex => exact keepsKeypad_retire ⟨rfl, rfl, rfl⟩
  case ret =>
    simp only [exec, execRet]
    split
    · rintro t ⟨⟩
    · exact keepsKeypad_retire ⟨rfl, rfl, rfl⟩
  case call =>
    simp only [exec, execCall]
    split
    · exact keepsKeypad_raiseFault s _ _
    · exact keepsKeypad_retire ⟨rfl, rfl, rfl⟩
  case skipKey | skipNkey =>
    simp only [exec, execSkipKey, execSkipNkey]
    split
    · rintro t ⟨⟩
    · exact keepsKeypad_skipIf s _
  case font =>
    simp only [exec, execFont]
    split
    · rintro t ⟨⟩
    · exact keepsKeypad_retire ⟨rfl, rfl, rfl⟩
  case draw =>
    simp only [exec, execDraw]
    split
    · exact keepsKeypad_gateAndRender s ⟨rfl, rfl, rfl⟩
    · split
      · exact keepsKeypad_gateAndRender s ⟨rfl, rfl, rfl⟩
      · exact keepsKeypad_raiseFault s _ _
  case bcd =>
    simp only [exec, execBcd]
    split
    · exact keepsKeypad_retire ⟨rfl, rfl, rfl⟩
    · exact keepsKeypad_raiseFault s _ _
  case store | load =>
    simp only [exec, execStore, execLoad]
    split
    · exact keepsKeypad_retire ⟨by simp, by simp, by simp⟩
    · exact keepsKeypad_raiseFault s _ _

end Sys2Proof.Machine
end

section
namespace Sys2Proof.Machine

/-! ## WAIT_KEY (R203, R211) -/

/-- Idle: the first presentation clears the edge and waits. -/
theorem exec_waitKey_of_idle {s : State} (x : Nibble) (h : s.keyWait = false) :
    exec (.waitKey x) s = .next { s with keyWait := true, lastEdge := none } := by
  simp only [exec, execWaitKey, h]
  rfl

/-- Waiting, and the latest edge is no release: a hold that changes nothing. -/
theorem exec_waitKey_of_no_release {s : State} (x : Nibble) (h : s.keyWait = true)
    (hno : ∀ k, s.lastEdge ≠ some (.release k)) : exec (.waitKey x) s = .next s := by
  simp only [exec, execWaitKey, h, if_true]
  split
  · next k hk => exact absurd hk (hno k)
  · rfl
  · rfl

/-- Waiting, and the latest edge is a release: the key is stored and the wait ends. -/
theorem exec_waitKey_of_release {s : State} (x : Nibble) {k : Nibble} (h : s.keyWait = true)
    (hk : s.lastEdge = some (.release k)) :
    exec (.waitKey x) s = retire { s.advance.setReg x k.toByte with keyWait := false } := by
  simp only [exec, execWaitKey, h, hk, if_true]

@[simp] theorem keyDown_keypressOp_self (s : State) (k : Nibble) :
    (keypressOp k s).keyDown k = true :=
  Vector.getElem_set_self k.isLt

@[simp] theorem keyDown_keyreleaseOp_self (s : State) (k : Nibble) :
    (keyreleaseOp k s).keyDown k = false :=
  Vector.getElem_set_self k.isLt

@[simp] theorem loadRomOp_keyWait (bytes : List Byte) (s : State) :
    (loadRomOp bytes s).keyWait = false := by
  unfold loadRomOp
  split <;> rfl

/-- An execution that ends the wait is WAIT_KEY with a release as the latest edge. -/
theorem exec_ends_keyWait {i : Instr} {s t : State} (hw : s.keyWait = true)
    (h : exec i s = .next t) (ht : t.keyWait = false) :
    ∃ x k, i = .waitKey x ∧ s.lastEdge = some (.release k) := by
  by_cases hi : ∃ x, i = .waitKey x
  · obtain ⟨x, rfl⟩ := hi
    by_cases hk : ∃ k, s.lastEdge = some (.release k)
    · obtain ⟨k, hk⟩ := hk
      exact ⟨x, k, rfl, hk⟩
    · rw [exec_waitKey_of_no_release x hw (not_exists.mp hk)] at h
      cases h
      simp [hw] at ht
  · obtain ⟨-, -, hsame⟩ := exec_keepsKeypad s (not_exists.mp hi) t h
    simp [hsame, hw] at ht

/-- A step that ends the wait presents such a WAIT_KEY: a faulted or faulting step keeps the wait. -/
theorem step_ends_keyWait {s t : State} (hw : s.keyWait = true) (h : step s = .next t)
    (ht : t.keyWait = false) :
    ∃ x k, presented s = some (.waitKey x) ∧ s.lastEdge = some (.release k) := by
  obtain ⟨r, -, he⟩ | ⟨-, -, he⟩ | ⟨w, -, -, -, he⟩ | ⟨w, i, -, -, -, hp, he⟩ := step_cases s
  · obtain rfl : s = t := by simpa [he] using h
    simp [hw] at ht
  · obtain rfl : s.latchFault .invalidAddress none = t := by simpa [he] using h
    simp [hw] at ht
  · obtain rfl : s.latchFault .invalidInstruction (some w) = t := by simpa [he] using h
    simp [hw] at ht
  · obtain ⟨x, k, rfl, hk⟩ := exec_ends_keyWait hw (he ▸ h) ht
    exact ⟨x, k, hp, hk⟩

/-- Of the host's operations only `reset` and `load_rom` end the wait. -/
theorem hostStep_ends_keyWait {op : HostOp} {s : State} (hw : s.keyWait = true)
    (ht : (hostStep op s).keyWait = false) : op = .reset ∨ ∃ bytes, op = .loadRom bytes := by
  cases op with
  | reset => exact .inl rfl
  | loadRom bytes => exact .inr ⟨bytes, rfl⟩
  | keypress | keyrelease | decrementTimers | vblankTrigger | getOutputBuffer | getSoundTimer =>
    exact absurd (hw.symm.trans ht) (by decide)

/-- Settles O46: WAIT_KEY's three presentations, the key events, the two operations that reset, and that
no other event leaves the wait. -/
theorem waitKeyIsATwoStateMachine : Obligations.WaitKeyIsATwoStateMachine := by
  refine ⟨fun s x => exec_waitKey_of_idle x, fun s x => exec_waitKey_of_no_release x, ?_, ?_, ?_, ?_⟩
  · intro s x k hw hk
    exact ⟨_, exec_waitKey_of_release x hw hk, rfl, State.reg_setReg_self s.advance x _, rfl, rfl⟩
  · intro s k hw
    exact ⟨hw, rfl, keyDown_keypressOp_self s k, hw, rfl, keyDown_keyreleaseOp_self s k⟩
  · exact fun s bytes => ⟨rfl, loadRomOp_keyWait bytes s⟩
  · intro e s t hw he ht
    cases e with
    | step =>
      obtain ⟨x, k, hp, hk⟩ := step_ends_keyWait hw he ht
      exact .inr (.inr ⟨rfl, x, k, hp, hk⟩)
    | host op =>
      cases he
      obtain rfl | ⟨bytes, rfl⟩ := hostStep_ends_keyWait hw ht
      · exact .inl rfl
      · exact .inr (.inl ⟨bytes, rfl⟩)

end Sys2Proof.Machine
end

section
namespace Sys2Proof.Machine

/-! ## decrement_timers (R236) -/

/-- The truncated subtraction of `Nat` is the floor at 0; the guard keeps the byte's own subtraction from
wrapping to 255. -/
theorem countDown_toNat (t : Byte) : (countDown t).toNat = t.toNat - 1 := by
  unfold countDown
  split
  case isTrue hpos =>
    have hle : 1#8 ≤ t := by bv_omega
    exact BitVec.toNat_sub_of_le hle
  case isFalse hzero =>
    have ht : t.toNat = 0 := by bv_omega
    simp [ht]

/-- Settles O55: each timer is counted down on its own, and no other field is written. -/
theorem decrementTimersFloorsAtZero : Obligations.DecrementTimersFloorsAtZero :=
  fun s => ⟨countDown_toNat s.dt, countDown_toNat s.st, rfl⟩

end Sys2Proof.Machine
end
section
namespace Sys2Proof.Machine

/-! ## StackOverflow (R253) -/

/-- An execution that latches a fault met the condition of that fault's kind: of the other ways an
execution ends, a retired and a held one keep the clear latch. -/
theorem raises_of_exec_latches {i : Instr} {s t : State} {r : FaultRecord} (hs : s.fault = none)
    (h : exec i s = .next t) (ht : t.fault = some r) : Raises s r.kind i := by
  have hends : Ends i s (.next t) := h ▸ exec_ends i s
  cases hends with
  | retired _ _ hkept _ => simp [hkept, hs] at ht
  | held _ _ hframe _ =>
    have hkept : t.fault = s.fault := by rw [hframe]
    simp [hkept, hs] at ht
  | faulted k hk =>
    cases ht
    exact hk

/-- CALL alone can raise StackOverflow, and its condition is the full stack. -/
theorem raises_stackOverflow_iff {s : State} {i : Instr} :
    Raises s .stackOverflow i ↔ ∃ nnn, i = .call nnn ∧ s.sp.val = 16 := by
  constructor
  · intro h
    cases i
    case call nnn => exact ⟨nnn, rfl, h⟩
    all_goals exact absurd h id
  · rintro ⟨nnn, rfl, hsp⟩
    exact hsp

/-- CALL on a full stack raises the fault in place of the push. -/
theorem exec_call_of_full {s : State} (nnn : Addr) (h : s.sp.val = 16) :
    exec (.call nnn) s = .next (s.latchFault .stackOverflow (some (encode (.call nnn)))) :=
  dif_pos h

/-- Settles O10: the faults of fetch and decode are of another kind, so a step that latches StackOverflow
executed an instruction that raises it; and a CALL presented on a full stack is such a step. -/
theorem stackOverflowIsRaisedByCallAtDepth16Only :
    Obligations.StackOverflowIsRaisedByCallAtDepth16Only := by
  intro s hs
  constructor
  · rintro ⟨t, r, hstep, ht, hkind⟩
    obtain ⟨r', hr', -⟩ | ⟨-, -, he⟩ | ⟨w, -, -, -, he⟩ | ⟨w, i, -, -, -, hp, he⟩ := step_cases s
    · simp [hs] at hr'
    · obtain rfl : s.latchFault .invalidAddress none = t := by simpa [he] using hstep
      cases ht
      cases hkind
    · obtain rfl : s.latchFault .invalidInstruction (some w) = t := by simpa [he] using hstep
      cases ht
      cases hkind
    · have hraises := raises_of_exec_latches hs (he ▸ hstep) ht
      rw [hkind] at hraises
      obtain ⟨nnn, rfl, hsp⟩ := raises_stackOverflow_iff.mp hraises
      exact ⟨nnn, hp, hsp⟩
  · rintro ⟨nnn, hp, hsp⟩
    have hstep := (step_of_presented hs hp).trans (exec_call_of_full nnn hsp)
    exact ⟨_, _, hstep, rfl, rfl⟩

end Sys2Proof.Machine
end

section
namespace Sys2Proof

/-! ## The decoder and the encoder are inverse (R90 to R98) -/

/-- Decoding the word of a well-formed instruction: the family field selects the row, the tail or the
bottom byte the row within the family. -/
theorem decodeWord_encode {i : Instr} (h : i.wf = true) : decodeWord (encode i) = some i := by
  cases i
  case jmpOff nnn x =>
    obtain rfl : x = nnn.extractLsb' 8 4 := by simpa [Instr.wf] using h
    simp [encode, decodeWord]
  case cls | ret => simp [encode, decodeWord, decodeFamily0]
  case jmp | call | ldi => simp [encode, decodeWord]
  case skipEqImm | skipNeImm | movImm | addImm | random => simp [encode, decodeWord]
  case skipEqReg | skipNeReg => simp [encode, decodeWord, decodeTail0]
  case mov | or | and | xor | add | sub | shr | rsub | shl => simp [encode, decodeWord, decodeFamily8]
  case draw => simp [encode, decodeWord]
  case skipKey | skipNkey => simp [encode, decodeWord, decodeFamilyE]
  case getDelay | waitKey | setDelay | setSound | addIndex | font | bcd | store | load =>
    simp [encode, decodeWord, decodeFamilyF]

theorem decodeBytes_of_decodeWord {w : Word} {i : Instr} (h : decodeWord w = some i)
    (rest : List Byte) : decodeBytes (highByte w :: lowByte w :: rest) = .instr i rest := by
  simp only [decodeBytes, wordOfBytes_high_low, h]

/-- Settles O1: each constructor's word decodes to it, and the two bytes put the word together again. -/
theorem decodeOfEncodeIsTheInstruction : Obligations.DecodeOfEncodeIsTheInstruction := fun _ rest h =>
  ⟨decodeWord_encode h, decodeBytes_of_decodeWord (decodeWord_encode h) rest⟩

/-! ### From words to instructions, family by family -/

theorem nibble_cases (a : Nibble) :
    a = 0x0 ∨ a = 0x1 ∨ a = 0x2 ∨ a = 0x3 ∨ a = 0x4 ∨ a = 0x5 ∨ a = 0x6 ∨ a = 0x7 ∨ a = 0x8 ∨
      a = 0x9 ∨ a = 0xA ∨ a = 0xB ∨ a = 0xC ∨ a = 0xD ∨ a = 0xE ∨ a = 0xF := by
  decide +revert

theorem encodeA_eq_of_fields {w : Word} {op : Nibble} {nnn : Addr} (ho : fieldOp w = op)
    (hn : fieldNnn w = nnn) : encodeA op nnn = w := ho ▸ hn ▸ encodeA_fields w

theorem encodeXI_eq_of_fields {w : Word} {op : Nibble} {nn : Byte} (ho : fieldOp w = op)
    (hn : fieldNn w = nn) : encodeXI op (fieldX w) nn = w := ho ▸ hn ▸ encodeXI_fields w

theorem encodeXY_eq_of_fields {w : Word} {op n4 : Nibble} (ho : fieldOp w = op)
    (hn : fieldN4 w = n4) : encodeXY op (fieldX w) (fieldY w) n4 = w := ho ▸ hn ▸ encodeXY_fields w

/-- `w` is the word of `i`, and `i` is an instruction. -/
def IsWordOf (w : Word) (i : Instr) : Prop := i.wf = true ∧ encode i = w

theorem isWordOf_of_decodeFamily0 {w : Word} {i : Instr} (ho : fieldOp w = 0x0)
    (h : decodeFamily0 w = some i) : IsWordOf w i := by
  unfold decodeFamily0 at h
  split at h <;> cases h <;> exact ⟨rfl, encodeA_eq_of_fields ho ‹_›⟩

theorem isWordOf_of_decodeTail0 {w : Word} {i j : Instr} (hj : fieldN4 w = 0x0 → IsWordOf w j)
    (h : decodeTail0 w j = some i) : IsWordOf w i := by
  unfold decodeTail0 at h
  split at h
  · next hn => cases h; exact hj hn
  · cases h

theorem isWordOf_of_decodeFamily8 {w : Word} {i : Instr} (ho : fieldOp w = 0x8)
    (h : decodeFamily8 w = some i) : IsWordOf w i := by
  unfold decodeFamily8 at h
  split at h <;> cases h <;> exact ⟨rfl, encodeXY_eq_of_fields ho ‹_›⟩

theorem isWordOf_of_decodeFamilyE {w : Word} {i : Instr} (ho : fieldOp w = 0xE)
    (h : decodeFamilyE w = some i) : IsWordOf w i := by
  unfold decodeFamilyE at h
  split at h <;> cases h <;> exact ⟨rfl, encodeXI_eq_of_fields ho ‹_›⟩

theorem isWordOf_of_decodeFamilyF {w : Word} {i : Instr} (ho : fieldOp w = 0xF)
    (h : decodeFamilyF w = some i) : IsWordOf w i := by
  unfold decodeFamilyF at h
  split at h <;> cases h <;> exact ⟨rfl, encodeXI_eq_of_fields ho ‹_›⟩

theorem isWordOf_of_decodeWord {w : Word} {i : Instr} (h : decodeWord w = some i) : IsWordOf w i := by
  unfold decodeWord at h
  split at h
  case h_1 ho => exact isWordOf_of_decodeFamily0 ho h
  case h_2 ho | h_3 ho | h_11 ho => cases h; exact ⟨rfl, encodeA_eq_of_fields ho rfl⟩
  case h_4 ho | h_5 ho | h_7 ho | h_8 ho | h_13 ho =>
    cases h; exact ⟨rfl, encodeXI_eq_of_fields ho rfl⟩
  case h_6 ho | h_10 ho =>
    refine isWordOf_of_decodeTail0 (fun hn => ⟨rfl, ?_⟩) h
    exact encodeXY_eq_of_fields ho hn
  case h_9 ho => exact isWordOf_of_decodeFamily8 ho h
  case h_12 ho =>
    cases h; exact ⟨decide_eq_true (fieldX_eq_fieldNnn w), encodeA_eq_of_fields ho rfl⟩
  case h_14 ho => cases h; exact ⟨rfl, encodeXY_eq_of_fields ho rfl⟩
  case h_15 ho => exact isWordOf_of_decodeFamilyE ho h
  case h_16 =>
    have ho : fieldOp w = 0xF := by have := nibble_cases (fieldOp w); tauto
    exact isWordOf_of_decodeFamilyF ho h

/-- Settles O2: family by family, the fields that select the row and the operand fields give the word. -/
theorem encodeOfDecodeIsTheWord : Obligations.EncodeOfDecodeIsTheWord :=
  fun _ _ => isWordOf_of_decodeWord

theorem encode_of_decodeWord {w : Word} {i : Instr} (h : decodeWord w = some i) : encode i = w :=
  (isWordOf_of_decodeWord h).2

/-! ### The illegal words (R96) -/

theorem decodeFamily0_eq_none (w : Word) :
    decodeFamily0 w = none ↔ fieldNnn w ∉ [0x0E0#12, 0x0EE#12] := by
  unfold decodeFamily0
  split <;> simp_all

theorem decodeTail0_eq_none (w : Word) (i : Instr) : decodeTail0 w i = none ↔ fieldN4 w ≠ 0x0 := by
  unfold decodeTail0
  split <;> simp_all

theorem decodeFamily8_eq_none (w : Word) :
    decodeFamily8 w = none ↔
      fieldN4 w ∈ [0x8#4, 0x9#4, 0xA#4, 0xB#4, 0xC#4, 0xD#4, 0xF#4] := by
  unfold decodeFamily8
  generalize fieldN4 w = n4
  rcases nibble_cases n4 with
    rfl | rfl | rfl | rfl | rfl | rfl | rfl | rfl | rfl | rfl | rfl | rfl | rfl | rfl | rfl | rfl <;> simp

theorem decodeFamilyE_eq_none (w : Word) :
    decodeFamilyE w = none ↔ fieldNn w ∉ [0x9E#8, 0xA1#8] := by
  unfold decodeFamilyE
  split <;> simp_all

theorem decodeFamilyF_eq_none (w : Word) :
    decodeFamilyF w = none ↔
      fieldNn w ∉ [0x07#8, 0x0A#8, 0x15#8, 0x18#8, 0x1E#8, 0x29#8, 0x33#8, 0x55#8, 0x65#8] := by
  unfold decodeFamilyF
  split <;> simp_all

/-- Settles O4: the family field picks the item of the list, and the item is what the family's own
decoder refuses. -/
theorem illegalWordsAreExactlyTheListedOnes : Obligations.IllegalWordsAreExactlyTheListedOnes := by
  intro w
  unfold decodeWord
  split
  case h_1 ho => simpa [IllegalWord, ho] using decodeFamily0_eq_none w
  case h_6 ho | h_10 ho => simpa [IllegalWord, ho] using decodeTail0_eq_none w _
  case h_9 ho => simpa [IllegalWord, ho] using decodeFamily8_eq_none w
  case h_15 ho => simpa [IllegalWord, ho] using decodeFamilyE_eq_none w
  case h_16 =>
    have ho : fieldOp w = 0xF := by have := nibble_cases (fieldOp w); tauto
    simpa [IllegalWord, ho] using decodeFamilyF_eq_none w
  case h_2 ho | h_3 ho | h_4 ho | h_5 ho | h_7 ho | h_8 ho | h_11 ho | h_12 ho | h_13 ho | h_14 ho =>
    simp [IllegalWord, ho]

/-- Settles O5. -/
theorem sampleWordsDecodeAsTheMapSays : Obligations.SampleWordsDecodeAsTheMapSays := by
  unfold Obligations.SampleWordsDecodeAsTheMapSays
  decide

/-! ### The opcode map (R95) -/

theorem fieldOp_of_and_F000 {w : Word} {op : Nibble} (h : w &&& 0xF000#16 = encodeA op 0) :
    fieldOp w = op := by
  rw [← encodeA_fields w, encodeA_and_F000] at h
  simpa using congrArg fieldOp h

theorem fields_of_and_F00F {w : Word} {op n4 : Nibble} (h : w &&& 0xF00F#16 = encodeXY op 0 0 n4) :
    fieldOp w = op ∧ fieldN4 w = n4 := by
  rw [← encodeXY_fields w, encodeXY_and_F00F] at h
  exact ⟨by simpa using congrArg fieldOp h, by simpa using congrArg fieldN4 h⟩

theorem fields_of_and_F0FF {w : Word} {op : Nibble} {nn : Byte}
    (h : w &&& 0xF0FF#16 = encodeXI op 0 nn) : fieldOp w = op ∧ fieldNn w = nn := by
  rw [← encodeXI_fields w, encodeXI_and_F0FF] at h
  exact ⟨by simpa using congrArg fieldOp h, by simpa using congrArg fieldNn h⟩

/-- Every word that matches the row decodes to an instruction with the row's tag. -/
def MatchesDecode (r : OpcodeRow) : Prop :=
  ∀ w : Word, w &&& r.mask = r.pattern → ∃ i, decodeWord w = some i ∧ i.mnemonic = r.mnemonic

theorem matchesDecode_FFFF {m : String} {p : Word}
    (h : ∃ i, decodeWord p = some i ∧ i.mnemonic = m) : MatchesDecode ⟨m, 0xFFFF, p⟩ := by
  intro w hw
  obtain rfl : w = p := BitVec.and_allOnes.symm.trans hw
  exact h

theorem matchesDecode_F000 {m : String} (op : Nibble)
    (h : ∀ w, fieldOp w = op → ∃ i, decodeWord w = some i ∧ i.mnemonic = m) :
    MatchesDecode ⟨m, 0xF000, encodeA op 0⟩ :=
  fun w hw => h w (fieldOp_of_and_F000 hw)

theorem matchesDecode_F00F {m : String} (op n4 : Nibble)
    (h : ∀ w, fieldOp w = op → fieldN4 w = n4 → ∃ i, decodeWord w = some i ∧ i.mnemonic = m) :
    MatchesDecode ⟨m, 0xF00F, encodeXY op 0 0 n4⟩ :=
  fun w hw => h w (fields_of_and_F00F hw).1 (fields_of_and_F00F hw).2

theorem matchesDecode_F0FF {m : String} (op : Nibble) (nn : Byte)
    (h : ∀ w, fieldOp w = op → fieldNn w = nn → ∃ i, decodeWord w = some i ∧ i.mnemonic = m) :
    MatchesDecode ⟨m, 0xF0FF, encodeXI op 0 nn⟩ :=
  fun w hw => h w (fields_of_and_F0FF hw).1 (fields_of_and_F0FF hw).2

theorem matchesDecode_low : ∀ r ∈ opcodeRowsLow, MatchesDecode r := by
  simp only [opcodeRowsLow, List.forall_mem_cons, List.not_mem_nil, false_imp_iff, implies_true, and_true]
  refine ⟨matchesDecode_FFFF ⟨.cls, rfl, rfl⟩, matchesDecode_FFFF ⟨.ret, rfl, rfl⟩,
    matchesDecode_F000 0x1 ?_, matchesDecode_F000 0x2 ?_, matchesDecode_F000 0x3 ?_,
    matchesDecode_F000 0x4 ?_, matchesDecode_F00F 0x5 0x0 ?_, matchesDecode_F000 0x6 ?_,
    matchesDecode_F000 0x7 ?_⟩
  all_goals
    intros
    simp [decodeWord, decodeTail0, Instr.mnemonic, *]

theorem matchesDecode_alu : ∀ r ∈ opcodeRowsAlu, MatchesDecode r := by
  simp only [opcodeRowsAlu, List.forall_mem_cons, List.not_mem_nil, false_imp_iff, implies_true, and_true]
  refine ⟨matchesDecode_F00F 0x8 0x0 ?_, matchesDecode_F00F 0x8 0x1 ?_, matchesDecode_F00F 0x8 0x2 ?_,
    matchesDecode_F00F 0x8 0x3 ?_, matchesDecode_F00F 0x8 0x4 ?_, matchesDecode_F00F 0x8 0x5 ?_,
    matchesDecode_F00F 0x8 0x6 ?_, matchesDecode_F00F 0x8 0x7 ?_, matchesDecode_F00F 0x8 0xE ?_⟩
  all_goals
    intros
    simp [decodeWord, decodeFamily8, Instr.mnemonic, *]

theorem matchesDecode_high : ∀ r ∈ opcodeRowsHigh, MatchesDecode r := by
  simp only [opcodeRowsHigh, List.forall_mem_cons, List.not_mem_nil, false_imp_iff, implies_true, and_true]
  refine ⟨matchesDecode_F00F 0x9 0x0 ?_, matchesDecode_F000 0xA ?_, matchesDecode_F000 0xB ?_,
    matchesDecode_F000 0xC ?_, matchesDecode_F000 0xD ?_, matchesDecode_F0FF 0xE 0x9E ?_,
    matchesDecode_F0FF 0xE 0xA1 ?_, matchesDecode_F0FF 0xF 0x07 ?_, matchesDecode_F0FF 0xF 0x0A ?_,
    matchesDecode_F0FF 0xF 0x15 ?_, matchesDecode_F0FF 0xF 0x18 ?_, matchesDecode_F0FF 0xF 0x1E ?_,
    matchesDecode_F0FF 0xF 0x29 ?_, matchesDecode_F0FF 0xF 0x33 ?_, matchesDecode_F0FF 0xF 0x55 ?_,
    matchesDecode_F0FF 0xF 0x65 ?_⟩
  all_goals
    intros
    simp [decodeWord, decodeTail0, decodeFamilyE, decodeFamilyF, Instr.mnemonic, *]

theorem matchesDecode {r : OpcodeRow} (h : r ∈ opcodeMap) : MatchesDecode r := by
  simp only [opcodeMap, List.mem_append] at h
  obtain (h | h) | h := h
  · exact matchesDecode_low r h
  · exact matchesDecode_alu r h
  · exact matchesDecode_high r h

/-- The tag names the row. -/
theorem opcodeRow_eq_of_mnemonic_eq :
    ∀ r ∈ opcodeMap, ∀ r' ∈ opcodeMap, r.mnemonic = r'.mnemonic → r = r' := by decide

/-- The law of Laws/PerInstr.lean for every instruction: its word matches the row of its tag. -/
theorem encode_matches_row : ∀ i, Laws.OpcodeRow.Statement i
  | .cls => Laws.OpcodeRow.cls
  | .ret => Laws.OpcodeRow.ret
  | .jmp a => Laws.OpcodeRow.jmp a
  | .call a => Laws.OpcodeRow.call a
  | .skipEqImm a b => Laws.OpcodeRow.skipEqImm a b
  | .skipNeImm a b => Laws.OpcodeRow.skipNeImm a b
  | .skipEqReg a b => Laws.OpcodeRow.skipEqReg a b
  | .movImm a b => Laws.OpcodeRow.movImm a b
  | .addImm a b => Laws.OpcodeRow.addImm a b
  | .mov a b => Laws.OpcodeRow.mov a b
  | .or a b => Laws.OpcodeRow.or a b
  | .and a b => Laws.OpcodeRow.and a b
  | .xor a b => Laws.OpcodeRow.xor a b
  | .add a b => Laws.OpcodeRow.add a b
  | .sub a b => Laws.OpcodeRow.sub a b
  | .shr a b => Laws.OpcodeRow.shr a b
  | .rsub a b => Laws.OpcodeRow.rsub a b
  | .shl a b => Laws.OpcodeRow.shl a b
  | .skipNeReg a b => Laws.OpcodeRow.skipNeReg a b
  | .ldi a => Laws.OpcodeRow.ldi a
  | .jmpOff a b => Laws.OpcodeRow.jmpOff a b
  | .random a b => Laws.OpcodeRow.random a b
  | .draw a b c => Laws.OpcodeRow.draw a b c
  | .skipKey a => Laws.OpcodeRow.skipKey a
  | .skipNkey a => Laws.OpcodeRow.skipNkey a
  | .getDelay a => Laws.OpcodeRow.getDelay a
  | .waitKey a => Laws.OpcodeRow.waitKey a
  | .setDelay a => Laws.OpcodeRow.setDelay a
  | .setSound a => Laws.OpcodeRow.setSound a
  | .addIndex a => Laws.OpcodeRow.addIndex a
  | .font a => Laws.OpcodeRow.font a
  | .bcd a => Laws.OpcodeRow.bcd a
  | .store a => Laws.OpcodeRow.store a
  | .load a => Laws.OpcodeRow.load a

/-- Settles O3: a word that matches a row decodes to the row's tag; conversely an instruction's word
matches the row of its tag, and the tag names the row. So two rows that match one word have one tag. -/
theorem decodeFollowsTheOpcodeMap : Obligations.DecodeFollowsTheOpcodeMap := by
  constructor
  · intro r hr w
    constructor
    · exact matchesDecode hr w
    · rintro ⟨i, hi, htag⟩
      obtain ⟨r', hr', htag', hw⟩ := encode_matches_row i
      obtain rfl := opcodeRow_eq_of_mnemonic_eq r' hr' r hr (htag'.trans htag)
      rwa [encode_of_decodeWord hi] at hw
  · intro r hr r' hr' w hw hw'
    obtain ⟨i, hi, htag⟩ := matchesDecode hr w hw
    obtain ⟨i', hi', htag'⟩ := matchesDecode hr' w hw'
    obtain rfl : i = i' := Option.some.inj (hi.symm.trans hi')
    exact opcodeRow_eq_of_mnemonic_eq r hr r' hr' (htag.symm.trans htag')

end Sys2Proof
end

section
namespace Sys2Proof.Machine

/-! ## The step: fetch, faults, outcomes (R120 to R128, R250 to R258) -/

/-- Settles O6: the two bytes are the fetched word, and that word decodes to the instruction. -/
theorem stepRunsTheInstructionAtPc : Obligations.StepRunsTheInstructionAtPc := by
  intro s i hs hi hhi hlo
  have hfetch : fetchWord s = some (encode i) := by
    rw [fetchWord_eq_memReadWord]
    exact memReadWord_eq_some.mpr ⟨hhi, hlo⟩
  exact step_of_decode hs hfetch (decodeWord_encode hi)

theorem fetchWord_eq_none_iff (s : State) : fetchWord s = none ↔ 0x0FFF ≤ s.pc.toNat := by
  rw [fetchWord_eq]
  split <;> simp_all

/-- Settles O8: the fetch's ceiling, and the step on a failed fetch. -/
theorem fetchFaultsExactlyAtTheTopOfTheBank : Obligations.FetchFaultsExactlyAtTheTopOfTheBank := fun s =>
  ⟨fetchWord_eq_none_iff s, fun hs hpc => step_of_fetch_none hs ((fetchWord_eq_none_iff s).mpr hpc)⟩

/-! ### Which faults a step raises -/

/-- The way a step sets the latch: by a failed fetch, a word that does not decode, or the instruction
presented, under that instruction's own condition. -/
theorem step_latches {s t : State} {r : FaultRecord} (hs : s.fault = none) (h : step s = .next t)
    (ht : t.fault = some r) :
    t = s.latchFault r.kind (fetchWord s) ∧
      ((r.kind = .invalidAddress ∧ fetchWord s = none) ∨
       (r.kind = .invalidInstruction ∧ ∃ w, fetchWord s = some w ∧ decodeWord w = none) ∨
       ∃ i, presented s = some i ∧ Raises s r.kind i) := by
  obtain ⟨r', hr', -⟩ | ⟨-, hw, he⟩ | ⟨w, -, hw, hd, he⟩ | ⟨w, i, -, hw, hd, hp, he⟩ := step_cases s
  · simp [hs] at hr'
  · obtain rfl : s.latchFault .invalidAddress none = t := by simpa [he] using h
    cases ht
    exact ⟨by rw [hw], .inl ⟨rfl, hw⟩⟩
  · obtain rfl : s.latchFault .invalidInstruction (some w) = t := by simpa [he] using h
    cases ht
    exact ⟨by rw [hw], .inr (.inl ⟨rfl, w, hw, hd⟩)⟩
  · have hends : Ends i s (.next t) := (he ▸ h) ▸ exec_ends i s
    cases hends with
    | retired _ _ hkept _ => simp [hkept, hs] at ht
    | held _ _ hframe _ =>
      have hkept : t.fault = s.fault := by rw [hframe]
      simp [hkept, hs] at ht
    | faulted k hk =>
      cases ht
      exact ⟨by rw [hw, encode_of_decodeWord hd], .inr (.inr ⟨i, hp, hk⟩)⟩

/-- Settles O9: an illegal word does not decode; and no instruction's own condition is of this kind. -/
theorem invalidInstructionIsRaisedByIllegalWordsOnly :
    Obligations.InvalidInstructionIsRaisedByIllegalWordsOnly := by
  intro s hs
  constructor
  · intro w hw hill
    exact step_of_decode_none hs hw ((illegalWordsAreExactlyTheListedOnes w).mpr hill)
  · intro t r hstep ht hkind
    obtain ⟨hlatch, ⟨hk, -⟩ | ⟨-, w, hw, hd⟩ | ⟨i, -, hr⟩⟩ := step_latches hs hstep ht
    · simp [hk] at hkind
    · have hop : r.opcode = fetchWord s := by
        rw [hlatch, State.latchFault_fault, Option.some.injEq] at ht
        exact (congrArg FaultRecord.opcode ht).symm
      exact ⟨w, hw, (illegalWordsAreExactlyTheListedOnes w).mp hd, hop.trans hw⟩
    · rw [hkind] at hr
      exact absurd hr id

/-- The conditions under which an instruction raises InvalidAddress, as R251 lists them. -/
theorem raises_invalidAddress_iff {s : State} {i : Instr} :
    Raises s .invalidAddress i ↔
      (∃ x y n, i = .draw x y n ∧ s.dataReady = false ∧ 0 < n.toNat ∧
        Config.memSize ≤ s.i.toNat + n.toNat - 1) ∨
      (∃ x, i = .bcd x ∧ Config.memSize ≤ s.i.toNat + 2) ∨
      (∃ x, (i = .store x ∨ i = .load x) ∧ Config.memSize ≤ s.i.toNat + x.toNat) := by
  cases i <;> simp [Raises]

theorem rangeOk_succ_iff (a n : Nat) : rangeOk a (n + 1) = true ↔ a + n < Config.memSize := by
  rw [rangeOk_iff]
  omega

/-- DRAW that would latch rows outside the bank. -/
theorem exec_draw_of_not_rangeOk {s : State} (x y n : Nibble) (hd : s.dataReady = false)
    (hr : ¬ rangeOk s.i.toNat n.toNat = true) :
    exec (.draw x y n) s = raiseFault s .invalidAddress (some (encode (.draw x y n))) := by
  simp only [exec, execDraw, hd, hr, Bool.false_eq_true, if_false]

theorem exec_of_raises_invalidAddress {s : State} {i : Instr} (h : Raises s .invalidAddress i) :
    exec i s = .next (s.latchFault .invalidAddress (some (encode i))) := by
  obtain ⟨x, y, n, rfl, hd, hn, hi⟩ | ⟨x, rfl, hi⟩ | ⟨x, rfl | rfl, hi⟩ := raises_invalidAddress_iff.mp h
  · exact exec_draw_of_not_rangeOk x y n hd (by rw [rangeOk_iff]; omega)
  · exact exec_bcd_of_not_rangeOk x (by rw [rangeOk_succ_iff]; omega)
  · exact exec_store_of_not_rangeOk (by rw [rangeOk_succ_iff]; omega)
  · exact exec_load_of_not_rangeOk (by rw [rangeOk_succ_iff]; omega)

/-- A step raises InvalidAddress by a failed fetch or by the instruction presented. -/
theorem step_latches_invalidAddress_iff {s : State} (hs : s.fault = none) :
    (∃ t r, step s = .next t ∧ t.fault = some r ∧ r.kind = .invalidAddress) ↔
      fetchWord s = none ∨ ∃ i, presented s = some i ∧ Raises s .invalidAddress i := by
  constructor
  · rintro ⟨t, r, hstep, ht, hkind⟩
    obtain ⟨-, ⟨-, hw⟩ | ⟨hk, -⟩ | ⟨i, hp, hr⟩⟩ := step_latches hs hstep ht
    · exact .inl hw
    · simp [hk] at hkind
    · exact .inr ⟨i, hp, hkind ▸ hr⟩
  · rintro (hw | ⟨i, hp, hr⟩)
    · exact ⟨_, _, step_of_fetch_none hs hw, rfl, rfl⟩
    · exact ⟨_, _, (step_of_presented hs hp).trans (exec_of_raises_invalidAddress hr), rfl, rfl⟩

/-- Settles O11: the fetch's ceiling and the instructions' own conditions. -/
theorem invalidAddressIsRaisedExactlyAsListed : Obligations.InvalidAddressIsRaisedExactlyAsListed := by
  intro s hs
  rw [step_latches_invalidAddress_iff hs, fetchWord_eq_none_iff]
  refine or_congr Iff.rfl ?_
  constructor
  · rintro ⟨i, hp, hr⟩
    obtain ⟨x, y, n, rfl, h⟩ | ⟨x, rfl, h⟩ | ⟨x, rfl | rfl, h⟩ := raises_invalidAddress_iff.mp hr
    · exact .inl ⟨x, y, n, hp, h⟩
    · exact .inr (.inl ⟨x, hp, h⟩)
    · exact .inr (.inr ⟨x, .inl hp, h⟩)
    · exact .inr (.inr ⟨x, .inr hp, h⟩)
  · rintro (⟨x, y, n, hp, h⟩ | ⟨x, hp, h⟩ | ⟨x, hp | hp, h⟩)
    · exact ⟨_, hp, h⟩
    · exact ⟨_, hp, h⟩
    · exact ⟨_, hp, h⟩
    · exact ⟨_, hp, h⟩

/-- Settles O12: the latch is set over the state before, with the word that was fetched. -/
theorem faultsArePrecise : Obligations.FaultsArePrecise := by
  rintro s t hstep ⟨hs, ht⟩
  obtain ⟨r, hr⟩ := Option.ne_none_iff_exists'.mp ht
  exact ⟨r.kind, (step_latches hs hstep hr).1⟩

@[simp] theorem loadRomOp_fault (bytes : List Byte) (s : State) : (loadRomOp bytes s).fault = none := by
  unfold loadRomOp
  split <;> rfl

/-- Settles O13: the step tests the latch first; of the host's operations only the two that reset write it. -/
theorem faultedCoreIsDeadUntilReset : Obligations.FaultedCoreIsDeadUntilReset := by
  intro s r hs
  refine ⟨step_of_fault hs, rfl, fun bytes => loadRomOp_fault bytes s, fun e t he => ?_⟩
  cases e with
  | step =>
    obtain rfl : s = t := by simpa [Event.outcome, step_of_fault hs] using he
    exact .inl hs
  | host op =>
    cases he
    cases op with
    | reset => exact .inr (.inl rfl)
    | loadRom bytes => exact .inr (.inr ⟨bytes, rfl⟩)
    | keypress | keyrelease | decrementTimers | vblankTrigger | getOutputBuffer | getSoundTimer =>
      exact .inl hs

/-! ### The four outcomes (R7) -/

theorem exec_ret_of_empty {s : State} (h : s.sp.val = 0) : exec .ret s = .fault .retEmptyStack :=
  dif_pos h

/-- A key or glyph number above 15 under `refuse`: all three instructions that select by it refuse. -/
theorem exec_of_selectsByReg {s : State} {i : Instr} {x : Nibble} (hi : SelectsByReg i x)
    (hp : s.cfg.idxPolicy = .refuse) (hx : 15 < (s.reg x).toNat) :
    exec i s = .refused .indexAboveFifteen := by
  have hnone := (keyOrGlyph_eq_none_iff s.cfg.idxPolicy (s.reg x)).mpr ⟨hp, hx⟩
  obtain rfl | rfl | rfl := hi
  · simp only [exec, execSkipKey, hnone]
  · simp only [exec, execSkipNkey, hnone]
  · simp only [exec, execFont, hnone]

/-- A next state of a step on a core without a fault: retired, held, or the latch set over the state
before. -/
theorem step_next_cases {s t : State} (hs : s.fault = none) (h : step s = .next t) :
    RetiredStep s t ∨ HeldStep s t ∨ (FaultedStep s t ∧ t.cycles = s.cycles) := by
  cases ht : t.fault with
  | some r =>
    obtain ⟨hlatch, -⟩ := step_latches hs h ht
    exact .inr (.inr ⟨⟨hs, by simp [ht]⟩, by rw [hlatch]; rfl⟩)
  | none =>
    obtain ⟨i, -, he⟩ := exec_of_step_without_fault h hs ht
    have hends : Ends i s (.next t) := he ▸ exec_ends i s
    cases hends with
    | retired _ hcount _ _ => exact .inl ⟨hs, ht, hcount⟩
    | held _ _ hframe _ => exact .inr (.inl ⟨hs, ht, by rw [hframe]⟩)
    | faulted k _ => simp at ht

/-- A step with no next state executed the instruction presented. -/
theorem exec_of_step_stops {s : State} (h : ∀ t, step s ≠ .next t) :
    ∃ i, presented s = some i ∧ step s = exec i s := by
  obtain ⟨r, -, he⟩ | ⟨-, -, he⟩ | ⟨w, -, -, -, he⟩ | ⟨w, i, -, -, -, hp, he⟩ := step_cases s
  · exact absurd he (h _)
  · exact absurd he (h _)
  · exact absurd he (h _)
  · exact ⟨i, hp, he⟩

/-- Settles O14: a next state is of one of three kinds, which the latch and the cycle count tell apart;
the two stops are the two ways an execution ends without a next state. -/
theorem everyStepHasOneOfFourOutcomes : Obligations.EveryStepHasOneOfFourOutcomes := by
  intro s hs
  refine ⟨fun t h => ?_, fun f => ⟨fun h => ?_, ?_⟩, fun r => ⟨fun h => ?_, ?_⟩⟩
  · have hkinds := step_next_cases hs h
    have hcount : ¬ s.cycles = s.cycles + 1 := by omega
    obtain ⟨-, ht, hc⟩ | ⟨-, ht, hc⟩ | ⟨⟨-, ht⟩, hc⟩ := hkinds <;>
      simp [RetiredStep, HeldStep, FaultedStep, hs, ht, hc]
  · obtain ⟨i, hp, he⟩ := exec_of_step_stops (s := s) (by simp [h])
    have hends : Ends i s (.fault f) := (he ▸ h) ▸ exec_ends i s
    cases hends with
    | emptyStack hi hsp => exact ⟨rfl, hi ▸ hp, hsp⟩
  · rintro ⟨rfl, hp, hsp⟩
    exact (step_of_presented hs hp).trans (exec_ret_of_empty hsp)
  · obtain ⟨i, hp, he⟩ := exec_of_step_stops (s := s) (by simp [h])
    have hends : Ends i s (.refused r) := (he ▸ h) ▸ exec_ends i s
    cases hends with
    | aboveFifteen x hi hpol hx =>
      refine ⟨rfl, hpol, x, hx, ?_⟩
      obtain rfl | rfl | rfl := hi
      · exact .inl hp
      · exact .inr (.inl hp)
      · exact .inr (.inr hp)
  · rintro ⟨rfl, hpol, x, hx, hp | hp | hp⟩
    · exact (step_of_presented hs hp).trans (exec_of_selectsByReg (.inl rfl) hpol hx)
    · exact (step_of_presented hs hp).trans (exec_of_selectsByReg (.inr (.inl rfl)) hpol hx)
    · exact (step_of_presented hs hp).trans (exec_of_selectsByReg (.inr (.inr rfl)) hpol hx)

/-! ### A hold of a wait in progress (R128) -/

theorem gateAndRender_of_shut {s0 s : State} (hq : s.cfg.qVblankWait = true)
    (hv : s.vblankReady = false) : gateAndRender s0 s = hold s0 s := by
  simp [gateAndRender, hq, hv]

theorem gateAndRender_of_open {s0 s : State} (h : s.cfg.qVblankWait = false ∨ s.vblankReady = true) :
    gateAndRender s0 s = retire s.renderLatched := by
  obtain h | h := h <;> simp [gateAndRender, h]

/-- Settles O16: a waiting WAIT_KEY without a release, and a latched DRAW behind a shut gate, put back the
state they found; with a release, or the gate open, they retire. -/
theorem heldStepOfAWaitInProgressChangesNothing : Obligations.HeldStepOfAWaitInProgressChangesNothing := by
  rintro s t hstep ⟨hs, -, hc⟩ (⟨hw, x, hp⟩ | ⟨hd, x, y, n, hp⟩)
  · rw [step_of_presented hs hp] at hstep
    by_cases hk : ∃ k, s.lastEdge = some (.release k)
    · obtain ⟨k, hk⟩ := hk
      rw [exec_waitKey_of_release x hw hk] at hstep
      cases hstep
      simp at hc
    · rw [exec_waitKey_of_no_release x hw (not_exists.mp hk)] at hstep
      cases hstep
      rfl
  · rw [step_of_presented hs hp, exec_draw_of_latched x y n hd] at hstep
    by_cases hg : s.cfg.qVblankWait = false ∨ s.vblankReady = true
    · rw [gateAndRender_of_open (s := s.advance) hg] at hstep
      cases hstep
      exact absurd hc (Nat.succ_ne_self s.cycles)
    · rw [gateAndRender_of_shut (s := s.advance) (by simp_all) (by simp_all)] at hstep
      cases hstep
      rfl

end Sys2Proof.Machine
end

section
namespace Sys2Proof.Machine

/-- A next state of a step: the same state on a faulted core, the latch set, or the next state of the
instruction presented. -/
theorem step_next_inversion {s t : State} (h : step s = .next t) :
    (t = s ∧ s.fault ≠ none) ∨ (∃ k w, t = s.latchFault k w) ∨
      ∃ i, s.fault = none ∧ presented s = some i ∧ exec i s = .next t := by
  obtain ⟨r, hr, he⟩ | ⟨-, -, he⟩ | ⟨w, -, -, -, he⟩ | ⟨w, i, hs, -, -, hp, he⟩ := step_cases s
  · exact .inl ⟨by simpa [he, eq_comm] using h, by simp [hr]⟩
  · exact .inr (.inl ⟨_, _, by simpa [he, eq_comm] using h⟩)
  · exact .inr (.inl ⟨_, _, by simpa [he, eq_comm] using h⟩)
  · exact .inr (.inr ⟨i, hs, hp, he ▸ h⟩)

/-! ### The ways on of the two instructions that can hold -/

/-- WAIT_KEY's ways on: a hold that changes nothing, the first presentation, or the key stored. -/
theorem exec_waitKey_cases (s : State) (x : Nibble) :
    exec (.waitKey x) s = .next s ∨
    exec (.waitKey x) s = .next { s with keyWait := true, lastEdge := none } ∨
    ∃ k : Nibble, exec (.waitKey x) s = retire { s.advance.setReg x k.toByte with keyWait := false } := by
  cases hw : s.keyWait with
  | false => exact .inr (.inl (exec_waitKey_of_idle x hw))
  | true =>
    by_cases hk : ∃ k, s.lastEdge = some (.release k)
    · obtain ⟨k, hk⟩ := hk
      exact .inr (.inr ⟨k, exec_waitKey_of_release x hw hk⟩)
    · exact .inl (exec_waitKey_of_no_release x hw (not_exists.mp hk))

/-- DRAW's ways on: a fault, a hold with the sprite latched, or the render of the latched sprite. -/
theorem exec_draw_cases (s : State) (x y n : Nibble) :
    (exec (.draw x y n) s = .next (s.latchFault .invalidAddress (some (encode (.draw x y n))))) ∨
    (s.dataReady = true ∧ exec (.draw x y n) s = gateAndRender s s.advance) ∨
    (s.dataReady = false ∧ (n.toNat = 0 ∨ s.i.toNat + n.toNat ≤ Config.memSize) ∧
      exec (.draw x y n) s = gateAndRender s (s.advance.latchSprite x y n)) := by
  cases hd : s.dataReady with
  | true => exact .inr (.inl ⟨rfl, exec_draw_of_latched x y n hd⟩)
  | false =>
    by_cases hr : rangeOk s.i.toNat n.toNat = true
    · exact .inr (.inr ⟨rfl, (rangeOk_iff _ _).mp hr, exec_draw_of_rangeOk x y n hd hr⟩)
    · exact .inl (exec_draw_of_not_rangeOk x y n hd hr)

/-- The gate either holds at the DRAW or lets the latched sprite be rendered. -/
theorem gateAndRender_next {s0 s t : State} (h : gateAndRender s0 s = .next t) :
    t = { s with pc := s0.pc } ∨ t = { s.renderLatched with cycles := s.cycles + 1 } := by
  unfold gateAndRender at h
  split at h
  · cases h
    exact .inl rfl
  · cases h
    exact .inr rfl

/-! ## The writers of each element (R21 to R35, R60) -/

/-- From `s` to `t` an element changes only if one of its writers may act: `may tags` says that one of
the instructions with these tags does. The lists are those of the state rules. -/
def WritesOnly (may : List String → Prop) (s t : State) : Prop :=
  t.cfg = s.cfg ∧ t.bankSel = s.bankSel ∧ t.keys = s.keys ∧
  (t.stack = s.stack ∨ may ["CALL"]) ∧
  (t.sp = s.sp ∨ may ["CALL", "RET"]) ∧
  (t.i = s.i ∨ may ["LDI", "FONT", "ADD_INDEX", "STORE", "LOAD"]) ∧
  (t.mem = s.mem ∨ may ["BCD", "STORE"]) ∧
  (t.fb = s.fb ∨ may ["DRAW", "CLS"]) ∧
  (SameLatch s t ∨ may ["DRAW"]) ∧
  (t.dt = s.dt ∨ may ["SET_DELAY"]) ∧
  (t.st = s.st ∨ may ["SET_SOUND"]) ∧
  ((t.keyWait = s.keyWait ∧ t.lastEdge = s.lastEdge) ∨ may ["WAIT_KEY"]) ∧
  (t.randomDraws = s.randomDraws ∨ may ["RANDOM"]) ∧
  (t.v = s.v ∨ may ["MOV_IMM", "ADD_IMM", "MOV", "OR", "AND", "XOR", "ADD", "SUB", "SHR",
    "RSUB", "SHL", "RANDOM", "GET_DELAY", "WAIT_KEY", "LOAD", "DRAW"])

theorem WritesOnly.mono {may may' : List String → Prop} {s t : State} (h : WritesOnly may s t)
    (hm : ∀ tags, may tags → may' tags) : WritesOnly may' s t := by
  obtain ⟨hcfg, hbank, hkeys, hstack, hsp, hi, hmem, hfb, hlatch, hdt, hst, hkey, hdraws, hv⟩ := h
  exact ⟨hcfg, hbank, hkeys, hstack.imp_right (hm _), hsp.imp_right (hm _), hi.imp_right (hm _),
    hmem.imp_right (hm _), hfb.imp_right (hm _), hlatch.imp_right (hm _), hdt.imp_right (hm _),
    hst.imp_right (hm _), hkey.imp_right (hm _), hdraws.imp_right (hm _), hv.imp_right (hm _)⟩

/-- An update of `pc`, `cycles` and the fault latch writes no listed element. -/
theorem writesOnly_of_control (may : List String → Prop) (s : State) (pc : Word)
    (f : Option FaultRecord) (c : Nat) : WritesOnly may s { s with pc := pc, fault := f, cycles := c } := by
  simp [WritesOnly, SameLatch]

theorem writesOnly_latchFault (may : List String → Prop) (s : State) (k : FaultKind) (w : Option Word) :
    WritesOnly may s (s.latchFault k w) := writesOnly_of_control may s s.pc _ s.cycles

/-- The outcome's next state, if it has one, differs from `s` in the elements that `i` may write. -/
def OutcomeWritesOnly (i : Instr) (s : State) (o : Host.Outcome State Fault Refusal) : Prop :=
  ∀ t, o = .next t → WritesOnly (i.mnemonic ∈ ·) s t

theorem outcomeWritesOnly_next {i : Instr} {s u : State} (h : WritesOnly (i.mnemonic ∈ ·) s u) :
    OutcomeWritesOnly i s (.next u) := by
  rintro t ⟨⟩
  exact h

theorem outcomeWritesOnly_raiseFault (i : Instr) (s : State) (k : FaultKind) (w : Option Word) :
    OutcomeWritesOnly i s (raiseFault s k w) :=
  outcomeWritesOnly_next (writesOnly_latchFault _ s k w)

/-- Hold or render, from the state with or without the sprite just latched: DRAW's own elements. -/
theorem outcomeWritesOnly_gateAndRender {x y n : Nibble} {s u : State}
    (h : WritesOnly ((Instr.draw x y n).mnemonic ∈ ·) s u) :
    OutcomeWritesOnly (.draw x y n) s (gateAndRender s u) := by
  intro t ht
  obtain rfl | rfl := gateAndRender_next ht
  · exact h
  · simpa [WritesOnly, SameLatch, Instr.mnemonic, State.renderLatched] using h

/-- What one execution can change: each arm of `exec` updates only elements that list its tag. -/
theorem exec_writesOnly (i : Instr) (s : State) : OutcomeWritesOnly i s (exec i s) := by
  cases i
  case cls | jmp | jmpOff | movImm | addImm | ldi | random | getDelay | setDelay | setSound
      | addIndex | skipEqImm | skipNeImm | skipEqReg | skipNeReg =>
    refine outcomeWritesOnly_next ?_
    simp [WritesOnly, SameLatch, Instr.mnemonic]
  case mov | or | and | xor | add | sub | shr | rsub | shl =>
    refine outcomeWritesOnly_next ?_
    simp [WritesOnly, SameLatch, Instr.mnemonic, State.aluWriteBack]
  case ret =>
    simp only [exec, execRet]
    split
    · rintro t ⟨⟩
    · refine outcomeWritesOnly_next ?_
      simp [WritesOnly, SameLatch, Instr.mnemonic]
  case call =>
    simp only [exec, execCall]
    split
    · exact outcomeWritesOnly_raiseFault _ s _ _
    · refine outcomeWritesOnly_next ?_
      simp [WritesOnly, SameLatch, Instr.mnemonic]
  case skipKey | skipNkey | font =>
    simp only [exec, execSkipKey, execSkipNkey, execFont]
    split
    · rintro t ⟨⟩
    · refine outcomeWritesOnly_next ?_
      simp [WritesOnly, SameLatch, Instr.mnemonic]
  case waitKey x =>
    obtain he | he | ⟨k, he⟩ := exec_waitKey_cases s x
    · rw [he]
      exact outcomeWritesOnly_next (writesOnly_of_control _ s s.pc s.fault s.cycles)
    · rw [he]
      refine outcomeWritesOnly_next ?_
      simp [WritesOnly, SameLatch, Instr.mnemonic]
    · rw [he]
      refine outcomeWritesOnly_next ?_
      simp [WritesOnly, SameLatch, Instr.mnemonic]
  case draw x y n =>
    obtain he | ⟨-, he⟩ | ⟨-, -, he⟩ := exec_draw_cases s x y n
    · rw [he]
      exact outcomeWritesOnly_raiseFault _ s _ _
    · rw [he]
      exact outcomeWritesOnly_gateAndRender (writesOnly_of_control _ s _ s.fault s.cycles)
    · rw [he]
      refine outcomeWritesOnly_gateAndRender ?_
      simp [WritesOnly, State.latchSprite, Instr.mnemonic]
  case bcd | store | load =>
    simp only [exec, execBcd, execStore, execLoad]
    split
    · refine outcomeWritesOnly_next ?_
      simp [WritesOnly, SameLatch, Instr.mnemonic]
    · exact outcomeWritesOnly_raiseFault _ s _ _

/-- Settles O21: a step is nothing, a set latch, or the execution of the instruction presented. -/
theorem stepWritesOnlyWhatTheStateRulesList : Obligations.StepWritesOnlyWhatTheStateRulesList := by
  intro s t h
  show WritesOnly (PresentsOneOf · s) s t
  obtain ⟨rfl, -⟩ | ⟨k, w, rfl⟩ | ⟨i, -, hp, he⟩ := step_next_inversion h
  · exact writesOnly_of_control _ t t.pc t.fault t.cycles
  · exact writesOnly_latchFault _ s k w
  · exact (exec_writesOnly i s t he).mono fun tags hi => ⟨i, hp, hi⟩

/-! ### `VF` (R22) -/

theorem reg_VF_setReg {s : State} {x : Nibble} (hx : x ≠ 15) (b : Byte) :
    (s.setReg x b).reg 15 = s.reg 15 :=
  State.reg_setReg_of_ne s b hx.symm

/-- An ALU operation whose flag is "unchanged" writes `VF` only as its destination. -/
theorem reg_VF_of_aluStep {s t : State} {x : Nibble} {r : Byte} (hx : x ≠ 15)
    (h : aluStep s x r none = .next t) : t.reg 15 = s.reg 15 := by
  obtain ⟨u, hu, -, -, -, -, -, hother⟩ := aluStep_result s x r none
  obtain rfl : u = t := by simpa [hu] using h
  exact hother 15 (by simpa using hx.symm)

/-- What LOAD leaves when its block is in the bank. -/
def State.loaded (s : State) (x : Nibble) : State :=
  autoIncrement { s.advance with v := loadRegs s.v s.mem s.i.toNat x, cycles := s.cycles + 1 } x

theorem exec_load_of_lt {s : State} {x : Nibble} (h : s.i.toNat + x.toNat < Config.memSize) :
    exec (.load x) s = .next (s.loaded x) := by
  rw [exec_load_of_rangeOk ((rangeOk_succ_iff _ _).mpr h)]
  unfold retire State.loaded autoIncrement
  split <;> rfl

theorem reg_loaded (s : State) (x r : Nibble) :
    (s.loaded x).reg r = if r ≤ x then s.mem.get (s.i.toNat + r.toNat) else s.reg r :=
  (State.reg_autoIncrement _ x r).trans (getElem_loadRegs s s.mem s.i.toNat x r)

/-- `VF` is written as a flag by the listed operations, or as the destination. -/
theorem exec_writes_VF {i : Instr} {s t : State} (h : exec i s = .next t) :
    t.reg 15 = s.reg 15 ∨
    i.mnemonic ∈ ["ADD", "SUB", "RSUB", "SHR", "SHL", "DRAW"] ∨
    (s.cfg.qVfReset = true ∧ i.mnemonic ∈ ["OR", "AND", "XOR"]) ∨
    (s.cfg.pMovResetsVf = true ∧ i.mnemonic ∈ ["MOV"]) ∨ destination i = some 15 := by
  by_cases hdest : destination i = some 15
  · exact .inr (.inr (.inr (.inr hdest)))
  obtain ⟨-, -, -, -, -, -, -, -, -, -, -, -, -, hv⟩ := exec_writesOnly i s t h
  cases i
  case add | sub | rsub | shr | shl | draw => exact .inr (.inl (by simp [Instr.mnemonic]))
  case mov x y =>
    cases hq : s.cfg.pMovResetsVf with
    | true => exact .inr (.inr (.inr (.inl ⟨rfl, by simp [Instr.mnemonic]⟩)))
    | false =>
      simp only [exec, execMov, movFlag, hq] at h
      exact .inl (reg_VF_of_aluStep (by simpa [destination] using hdest) h)
  case or | and | xor =>
    cases hq : s.cfg.qVfReset with
    | true => exact .inr (.inr (.inl ⟨rfl, by simp [Instr.mnemonic]⟩))
    | false =>
      simp only [exec, execOr, execAnd, execXor, bitwiseFlag, hq] at h
      exact .inl (reg_VF_of_aluStep (by simpa [destination] using hdest) h)
  case movImm | addImm | random | getDelay =>
    cases h
    exact .inl (reg_VF_setReg (s := s.advance) (by simpa [destination] using hdest) _)
  case waitKey x =>
    have hx : x ≠ 15 := by simpa [destination] using hdest
    obtain he | he | ⟨k, he⟩ := exec_waitKey_cases s x
    · obtain rfl : s = t := by simpa [he] using h
      exact .inl rfl
    · rw [he] at h
      cases h
      exact .inl rfl
    · rw [he] at h
      cases h
      exact .inl (reg_VF_setReg (s := s.advance) hx _)
  case load x =>
    have hx : x ≠ 15 := by simpa [destination] using hdest
    by_cases hi : s.i.toNat + x.toNat < Config.memSize
    · rw [exec_load_of_lt hi] at h
      cases h
      refine .inl ((reg_loaded s x 15).trans (if_neg ?_))
      bv_omega
    · rw [exec_of_raises_invalidAddress (i := .load x) (Nat.le_of_not_lt hi)] at h
      cases h
      exact .inl rfl
  all_goals exact .inl (State.reg_congr (by simpa [Instr.mnemonic] using hv) 15)

/-- Settles O22: a set latch leaves `VF`, and the execution of the instruction presented writes it so. -/
theorem vfIsWrittenOnlyAsFlagOrDestination : Obligations.VfIsWrittenOnlyAsFlagOrDestination := by
  intro s t h
  obtain ⟨rfl, -⟩ | ⟨k, w, rfl⟩ | ⟨i, -, hp, he⟩ := step_next_inversion h
  · exact .inl rfl
  · exact .inl rfl
  · obtain hsame | htag | ⟨hq, htag⟩ | ⟨hq, htag⟩ | hdest := exec_writes_VF he
    · exact .inl hsame
    · exact .inr (.inl ⟨i, hp, htag⟩)
    · exact .inr (.inr (.inl ⟨hq, i, hp, htag⟩))
    · exact .inr (.inr (.inr (.inl ⟨hq, i, hp, htag⟩)))
    · exact .inr (.inr (.inr (.inr ⟨i, hp, hdest⟩)))

end Sys2Proof.Machine
end

section
namespace Sys2Proof.Machine

/-! ## The waits (10_state.md R37): what an execution leaves waiting -/

/-- Only DRAW's own execution touches the two latches and the latched sprite. -/
theorem exec_keepsLatch {i : Instr} {s t : State} (hi : ∀ x y n, i ≠ .draw x y n)
    (h : exec i s = .next t) : SameLatch s t := by
  obtain ⟨-, -, -, -, -, -, -, -, hlatch, -⟩ := exec_writesOnly i s t h
  refine hlatch.resolve_right ?_
  cases i
  case draw x y n => exact absurd rfl (hi x y n)
  all_goals simp [Instr.mnemonic]

/-- A WAIT_KEY that counts a cycle has its key and no longer waits. -/
theorem keyWait_of_waitKey_retired {s t : State} {x : Nibble} (h : exec (.waitKey x) s = .next t)
    (hc : t.cycles = s.cycles + 1) : t.keyWait = false := by
  obtain he | he | ⟨k, he⟩ := exec_waitKey_cases s x
  · obtain rfl : s = t := by simpa [he] using h
    simp at hc
  · rw [he] at h
    cases h
    simp at hc
  · rw [he] at h
    cases h
    rfl

/-- The latch phase leaves what `LatchOk` asks of the held state. -/
theorem latchOk_held_latchSprite {s : State} {x y n : Nibble}
    (hp : presented s = some (.draw x y n))
    (hr : n.toNat = 0 ∨ s.i.toNat + n.toNat ≤ Config.memSize) :
    LatchOk { s.advance.latchSprite x y n with pc := s.pc } := by
  refine fun _ => ⟨x, y, n, hp, rfl, rfl, rfl, fun r h hrn => ?_⟩
  have hin : s.i.toNat + r < Config.memSize := by omega
  show memRead s.mem (s.i.toNat + r) = _
  simp [State.latchSprite, hrn, memRead_of_lt hin]

/-- A DRAW that counts a cycle has rendered its sprite; one that leaves a sprite latched leaves it as
`LatchOk` says. -/
theorem draw_latchOk {s t : State} {x y n : Nibble} (hs : LatchOk s)
    (hp : presented s = some (.draw x y n)) (h : exec (.draw x y n) s = .next t) : LatchOk t := by
  obtain he | ⟨-, he⟩ | ⟨-, hr, he⟩ := exec_draw_cases s x y n
  · obtain rfl : s.latchFault .invalidAddress _ = t := by simpa [he] using h
    exact hs
  · obtain rfl | rfl := gateAndRender_next (he ▸ h)
    · exact hs
    · exact fun hd => by simp [State.renderLatched] at hd
  · obtain rfl | rfl := gateAndRender_next (he ▸ h)
    · exact latchOk_held_latchSprite hp hr
    · exact fun hd => by simp [State.renderLatched] at hd

theorem dataReady_of_draw_retired {s t : State} {x y n : Nibble}
    (h : exec (.draw x y n) s = .next t) (hc : t.cycles = s.cycles + 1) : t.dataReady = false := by
  obtain he | ⟨-, he⟩ | ⟨-, hr, he⟩ := exec_draw_cases s x y n
  · obtain rfl : s.latchFault .invalidAddress _ = t := by simpa [he] using h
    simp at hc
  · obtain rfl | rfl := gateAndRender_next (he ▸ h)
    · simp at hc
    · rfl
  · obtain rfl | rfl := gateAndRender_next (he ▸ h)
    · simp [State.latchSprite] at hc
    · rfl

/-! ### The invariant under one execution -/

section
variable {i : Instr} {s t : State} (hinv : Inv s) (hp : presented s = some i)
  (he : exec i s = .next t)
include hinv hp he

/-- A core that waits for a key after an execution executed a WAIT_KEY. -/
theorem waitKey_of_keyWait (hw : t.keyWait = true) : ∃ x, i = .waitKey x := by
  by_contra hi
  obtain ⟨-, -, hkeep⟩ := exec_keepsKeypad s (not_exists.mp hi) t he
  obtain ⟨x, hx⟩ := hinv.keyWaitOk (hkeep ▸ hw)
  exact hi ⟨x, Option.some.inj (hp.symm.trans hx)⟩

/-- A core that holds a sprite after an execution executed a DRAW. -/
theorem draw_of_dataReady (hd : t.dataReady = true) : ∃ x y n, i = .draw x y n := by
  by_contra hi
  have hno : ∀ x y n, i ≠ .draw x y n := fun x y n h => hi ⟨x, y, n, h⟩
  obtain ⟨hkeep, -⟩ := exec_keepsLatch hno he
  obtain ⟨x, y, n, hx, -⟩ := hinv.latchOk (hkeep ▸ hd)
  exact hno x y n (Option.some.inj (hp.symm.trans hx))

/-- An execution that leaves a wait on did not retire: `pc` and memory stand as they were. -/
theorem exec_waiting_frame (hw : t.keyWait = true ∨ t.dataReady = true) :
    t.pc = s.pc ∧ t.mem = s.mem := by
  have hends : Ends i s (.next t) := he ▸ exec_ends i s
  cases hends with
  | retired _ hc _ _ =>
    obtain hw | hd := hw
    · obtain ⟨x, rfl⟩ := waitKey_of_keyWait hinv hp he hw
      simp [keyWait_of_waitKey_retired he hc] at hw
    · obtain ⟨x, y, n, rfl⟩ := draw_of_dataReady hinv hp he hd
      simp [dataReady_of_draw_retired he hc] at hd
  | held _ _ hframe _ => rw [hframe]; exact ⟨rfl, rfl⟩
  | faulted k _ => exact ⟨rfl, rfl⟩

theorem exec_keepsInv (hs : s.fault = none) : Inv t where
  notBothWaits := by
    rintro ⟨hw, hd⟩
    obtain ⟨x, rfl⟩ := waitKey_of_keyWait hinv hp he hw
    obtain ⟨x', y, n, hi⟩ := draw_of_dataReady hinv hp he hd
    cases hi
  keyWaitOk := by
    intro hw
    obtain ⟨hpc, hmem⟩ := exec_waiting_frame hinv hp he (.inl hw)
    obtain ⟨x, rfl⟩ := waitKey_of_keyWait hinv hp he hw
    exact ⟨x, (presented_congr hpc hmem).trans hp⟩
  latchOk := by
    intro hd
    obtain ⟨x, y, n, rfl⟩ := draw_of_dataReady hinv hp he hd
    exact draw_latchOk hinv.latchOk hp he hd
  faultPc := by
    intro r hr
    have hends : Ends i s (.next t) := he ▸ exec_ends i s
    cases hends with
    | retired _ _ hkept _ => simp [hkept, hs] at hr
    | held _ _ hframe _ =>
      have hkept : t.fault = s.fault := by rw [hframe]
      simp [hkept, hs] at hr
    | faulted k _ => cases hr; rfl

end

/-! ### The invariants under every event -/

theorem inv_latchFault {s : State} (h : Inv s) (k : FaultKind) (w : Option Word) :
    Inv (s.latchFault k w) :=
  ⟨h.notBothWaits, h.keyWaitOk, h.latchOk, by rintro r ⟨⟩; rfl⟩

/-- A core with neither wait on and no fault meets the invariant. -/
theorem inv_of_idle {s : State} (hk : s.keyWait = false) (hd : s.dataReady = false)
    (hf : s.fault = none) : Inv s :=
  ⟨by simp [hk], by simp [KeyWaitOk, hk], by simp [LatchOk, hd], by simp [hf]⟩

theorem step_keepsInv {s t : State} (hinv : Inv s) (h : step s = .next t) : Inv t := by
  obtain ⟨rfl, -⟩ | ⟨k, w, rfl⟩ | ⟨i, hs, hp, he⟩ := step_next_inversion h
  · exact hinv
  · exact inv_latchFault hinv k w
  · exact exec_keepsInv hinv hp he hs

/-- `load_rom` is `reset` but for memory. -/
theorem loadRomOp_eq (bytes : List Byte) (s : State) :
    loadRomOp bytes s = { resetOp s with mem := (loadRomOp bytes s).mem } := by
  unfold loadRomOp
  split <;> rfl

theorem hostStep_keepsInv (op : HostOp) {s : State} (h : Inv s) : Inv (hostStep op s) := by
  cases op with
  | reset => exact inv_of_idle rfl rfl rfl
  | loadRom bytes =>
    show Inv (loadRomOp bytes s)
    rw [loadRomOp_eq]
    exact inv_of_idle rfl rfl rfl
  | keypress | keyrelease | decrementTimers | vblankTrigger | getOutputBuffer | getSoundTimer =>
    exact ⟨h.notBothWaits, h.keyWaitOk, h.latchOk, h.faultPc⟩

/-- Settles O17: a step keeps the invariant, and so does every operation of the host. -/
theorem everyEventKeepsTheWaitInvariant : Obligations.EveryEventKeepsTheWaitInvariant := by
  intro e s t hinv h
  cases e with
  | step => exact step_keepsInv hinv h
  | host op =>
    cases h
    exact hostStep_keepsInv op hinv

/-- Settles O19: no wait is on after reset, and the memory holds the font's cells. -/
theorem resetMeetsTheInvariants : Obligations.ResetMeetsTheInvariants := fun c =>
  ⟨inv_of_idle rfl rfl rfl, State.resetWith_mem_wf c⟩

/-! ### The canonical form of memory under every event -/

/-- What STORE leaves when its block is in the bank. -/
def State.stored (s : State) (x : Nibble) : State :=
  autoIncrement { s.advance with
    mem := s.mem.writeBytes s.i.toNat (regsUpTo s x), cycles := s.cycles + 1 } x

theorem exec_store_of_lt {s : State} {x : Nibble} (h : s.i.toNat + x.toNat < Config.memSize) :
    exec (.store x) s = .next (s.stored x) := by
  rw [exec_store_of_rangeOk ((rangeOk_succ_iff _ _).mpr h)]
  unfold retire State.stored autoIncrement
  split <;> rfl

@[simp] theorem stored_mem (s : State) (x : Nibble) :
    (s.stored x).mem = s.mem.writeBytes s.i.toNat (regsUpTo s x) := autoIncrement_mem _ x

theorem regsUpTo_fits {s : State} {x : Nibble} (h : s.i.toNat + x.toNat < Config.memSize) :
    s.i.toNat + (regsUpTo s x).length ≤ Config.memSize := by
  rw [length_regsUpTo]
  omega

theorem bcdDigits_fits {a : Nat} (b : Byte) (h : a + 2 < Config.memSize) :
    a + (bcdDigits b).length ≤ Config.memSize := Nat.succ_le_of_lt h

/-- Of the executions only BCD and STORE write memory, and only inside the bank. -/
theorem exec_keepsMemWf {i : Instr} {s t : State} (hw : s.mem.wf = true) (h : exec i s = .next t) :
    t.mem.wf = true := by
  obtain ⟨-, -, -, -, -, -, hmem, -⟩ := exec_writesOnly i s t h
  cases i
  case bcd x =>
    by_cases hi : s.i.toNat + 2 < Config.memSize
    · rw [exec_bcd_of_rangeOk x ((rangeOk_succ_iff _ 2).mpr hi)] at h
      cases h
      exact Memory.wf_writeBytes hw (bcdDigits_fits _ hi)
    · rw [exec_of_raises_invalidAddress (i := .bcd x) (Nat.le_of_not_lt hi)] at h
      cases h
      exact hw
  case store x =>
    by_cases hi : s.i.toNat + x.toNat < Config.memSize
    · rw [exec_store_of_lt hi] at h
      cases h
      rw [stored_mem]
      exact Memory.wf_writeBytes hw (regsUpTo_fits hi)
    · rw [exec_of_raises_invalidAddress (i := .store x) (Nat.le_of_not_lt hi)] at h
      cases h
      exact hw
  all_goals
    have hsame : t.mem = s.mem := by simpa [Instr.mnemonic] using hmem
    rwa [hsame]

theorem loadRomOp_mem_wf (bytes : List Byte) (s : State) : (loadRomOp bytes s).mem.wf = true := by
  unfold loadRomOp
  split
  · exact State.resetWith_mem_wf s.cfg
  · exact writeBlock_wf (State.resetWith_mem_wf s.cfg) ‹_›

/-- Settles O18: the writes of a step and of `load_rom` stay inside the bank, and `reset` starts anew. -/
theorem everyEventKeepsMemoryCanonical : Obligations.EveryEventKeepsMemoryCanonical := by
  intro e s t hw h
  cases e with
  | step =>
    obtain ⟨rfl, -⟩ | ⟨k, w, rfl⟩ | ⟨i, -, -, he⟩ := step_next_inversion h
    · exact hw
    · exact hw
    · exact exec_keepsMemWf hw he
  | host op =>
    cases h
    cases op with
    | reset => exact State.resetWith_mem_wf s.cfg
    | loadRom bytes => exact loadRomOp_mem_wf bytes s
    | keypress | keyrelease | decrementTimers | vblankTrigger | getOutputBuffer | getSoundTimer =>
      exact hw

/-! ### Reachable states -/

theorem inv_of_reachable {s : State} (h : Reachable s) : Inv s := by
  induction h with
  | reset c => exact (resetMeetsTheInvariants c).1
  | event e _ he ih => exact everyEventKeepsTheWaitInvariant e _ _ ih he

/-- An event that leaves a wait on leaves `pc` and memory as they were. -/
theorem event_waiting_frame {e : Event} {s t : State} (hinv : Inv s) (h : e.outcome s = .next t)
    (hw : t.keyWait = true ∨ t.dataReady = true) : t.pc = s.pc ∧ t.mem = s.mem := by
  cases e with
  | step =>
    obtain ⟨rfl, -⟩ | ⟨k, w, rfl⟩ | ⟨i, -, hp, he⟩ := step_next_inversion h
    · exact ⟨rfl, rfl⟩
    · exact ⟨rfl, rfl⟩
    · exact exec_waiting_frame hinv hp he hw
  | host op =>
    cases h
    cases op with
    | reset => simp [hostStep, resetOp, State.resetWith] at hw
    | loadRom bytes =>
      rw [hostStep, loadRomOp_eq] at hw
      simp [resetOp, State.resetWith] at hw
    | keypress | keyrelease | decrementTimers | vblankTrigger | getOutputBuffer | getSoundTimer =>
      exact ⟨rfl, rfl⟩

/-- Settles O20: the clauses are the invariant's, read at a reachable state, and those of single events. -/
theorem reachableStatesMeetTheListedClauses : Obligations.ReachableStatesMeetTheListedClauses := by
  intro s hreach
  have hinv := inv_of_reachable hreach
  refine ⟨hinv.notBothWaits, hinv.keyWaitOk, fun hd => ?_, Nat.le_of_lt_succ s.sp.isLt, fun hf => ?_,
    fun e t => event_waiting_frame hinv⟩
  · obtain ⟨x, y, n, hp, hx, hy, rfl, hbuf⟩ := hinv.latchOk hd
    exact ⟨x, y, hp, hx, hy, hbuf⟩
  · obtain ⟨r, hr⟩ := Option.ne_none_iff_exists'.mp hf
    exact step_of_fault hr

end Sys2Proof.Machine
end

section
namespace Sys2Proof.Machine

/-! ## Memory, reset and load_rom (R60 to R71, R231, R232) -/

/-- Settles O23: the bound checks, and a read after a canonical write. -/
theorem memoryReadsWhatWasLastWritten : Obligations.MemoryReadsWhatWasLastWritten := by
  intro m a v hw
  refine ⟨fun ha => ⟨memRead_of_le ha, if_pos ha⟩, fun ha => ⟨⟨_, memRead_of_lt ha⟩, m.set a v,
    if_neg (Nat.not_le_of_lt ha), Memory.wf_set hw ha v, ?_, fun b hb => memRead_congr ?_⟩⟩
  · rw [memRead_of_lt ha, Memory.get_set hw, if_pos rfl]
  · rw [Memory.get_set hw, if_neg hb]

section
variable {m : Memory} (hw : m.wf = true) {a : Nat} {bs : List Byte}
  (hfit : a + bs.length ≤ Config.memSize)
include hw hfit

/-- Inside a block that was written a read gives the block's byte. -/
theorem memRead_writeBytes_inside {j : Nat} (hj : j < bs.length) :
    memRead (m.writeBytes a bs) (a + j) = some (bs.getD j 0) := by
  rw [memRead_of_lt (by omega), Memory.get_writeBytes hw hfit, if_pos (by omega), Nat.add_sub_cancel_left]

/-- Outside it a read gives what it gave before. -/
theorem memRead_writeBytes_outside {b : Nat} (hb : b < a ∨ a + bs.length ≤ b) :
    memRead (m.writeBytes a bs) b = memRead m b :=
  memRead_congr ((Memory.get_writeBytes hw hfit b).trans (if_neg (by omega)))

end

/-- A canonical list finds nothing at or above the bank's top. -/
theorem cellsFind_eq_none_of_le {lo a : Nat} {cs : List Host.Cell} (hw : cellsWf lo cs = true)
    (ha : Config.memSize ≤ a) : cellsFind cs a = none := by
  by_contra hne
  obtain ⟨b, hb⟩ := Option.ne_none_iff_exists'.mp hne
  obtain ⟨-, -, hlt⟩ := cellsFind_ne_unlisted hw hb
  omega

/-- On a canonical list a lookup is determined by the byte read: an unlisted address reads as a byte
that no listed address holds. -/
theorem cellsFind_eq_of_get_eq {m m' : Memory} (hw : m.wf = true) (hw' : m'.wf = true) {a : Nat}
    (h : m.get a = m'.get a) : cellsFind m.cells a = cellsFind m'.cells a := by
  unfold Memory.get at h
  cases hc : cellsFind m.cells a with
  | none =>
    cases hd : cellsFind m'.cells a with
    | none => rfl
    | some c =>
      obtain ⟨hne, -⟩ := cellsFind_ne_unlisted hw' hd
      exact absurd (by simpa [hc, hd] using h.symm) hne
  | some b =>
    cases hd : cellsFind m'.cells a with
    | none =>
      obtain ⟨hne, -⟩ := cellsFind_ne_unlisted hw hc
      exact absurd (by simpa [hc, hd] using h) hne
    | some c => simpa [hc, hd] using h

/-- Settles O24: the lookups agree inside the bank because the reads do, and outside it both find
nothing; canonical lists with the same lookups are the same. -/
theorem canonicalMemoriesThatReadAlikeAreEqual : Obligations.CanonicalMemoriesThatReadAlikeAreEqual := by
  intro m m' hw hw' hread
  have hcells : m.cells = m'.cells := cells_ext hw hw' fun a => by
    rcases Nat.lt_or_ge a Config.memSize with ha | ha
    · have h := hread a
      rw [memRead_of_lt ha, memRead_of_lt ha, Option.some.injEq] at h
      exact cellsFind_eq_of_get_eq hw hw' h
    · rw [cellsFind_eq_none_of_le hw ha, cellsFind_eq_none_of_le hw' ha]
  cases m
  cases m'
  exact congrArg Memory.mk hcells

theorem get_reset_font (font : Vector Byte Config.fontBytes) {j : Nat} (h : j < 80) :
    (Memory.reset font).get (0x0050 + j) = font[j]'h := by
  rw [Memory.get_reset, if_pos (Nat.le_add_right _ j)]
  simp [h]

theorem get_reset_of_not_font (font : Vector Byte Config.fontBytes) {a : Nat}
    (h : a < 0x0050 ∨ 0x00A0 ≤ a) : (Memory.reset font).get a = 0 := by
  rw [Memory.get_reset]
  split
  · next hle =>
    have hle : 0x0050 ≤ a := hle
    refine List.getD_eq_default _ _ ?_
    rw [Vector.length_toList]
    show 80 ≤ a - 0x0050
    omega
  · rfl

/-- Settles O25: the fields of the reset state, and the reads of its memory. -/
theorem resetLeavesTheListedValues : Obligations.ResetLeavesTheListedValues := by
  intro s
  have hfont : ∀ j (h : j < 80), memRead (resetOp s).mem (0x0050 + j) = some (s.cfg.fontData[j]'h) := by
    intro j h
    have hin : 0x0050 + j < Config.memSize := by
      show 0x0050 + j < 0x1000
      omega
    rw [memRead_of_lt hin]
    exact congrArg some (get_reset_font s.cfg.fontData h)
  have hzero : ∀ a, a < 0x1000 → a < 0x0050 ∨ 0x00A0 ≤ a → memRead (resetOp s).mem a = some 0 := by
    intro a ha h
    rw [memRead_of_lt ha]
    exact congrArg some (get_reset_of_not_font s.cfg.fontData h)
  exact ⟨rfl, rfl, rfl, fun x => Vector.getElem_replicate x.isLt, fun j h => Vector.getElem_replicate h,
    rfl, rfl, fun k => Vector.getElem_replicate k.isLt, rfl, rfl, hfont, hzero, rfl,
    fun y x => pixelAt_blankFrame y x, rfl, rfl, rfl, rfl, rfl, fun r h => Vector.getElem_replicate h,
    rfl, rfl, rfl⟩

/-! ### load_rom -/

theorem loadRom_of_fits {bytes : List Byte} {s : State} (h : bytes.length ≤ 3584) :
    loadRomReport bytes s = none ∧ (loadRomOp bytes s).mem = (resetOp s).mem.writeBytes 0x0200 bytes := by
  have hfit : writeBlock (resetOp s).mem Config.entry.toNat bytes =
      some ((resetOp s).mem.writeBytes 0x0200 bytes) := if_pos (by show 512 + bytes.length ≤ 4096; omega)
  simp only [loadRomReport, loadRomOp, hfit, and_self]

theorem loadRom_of_too_long {bytes : List Byte} {s : State} (h : 3584 < bytes.length) :
    loadRomReport bytes s = some .invalidAddress ∧ loadRomOp bytes s = resetOp s := by
  have hlong : writeBlock (resetOp s).mem Config.entry.toNat bytes = none :=
    if_neg (by show ¬ 512 + bytes.length ≤ 4096; omega)
  simp only [loadRomReport, loadRomOp, hlong, and_self]

/-- Settles O57: the block either fits and is written over the reset memory, or nothing is written. -/
theorem loadRomResetsThenPlacesTheProgram : Obligations.LoadRomResetsThenPlacesTheProgram := by
  intro s bytes
  refine ⟨fun h => ?_, loadRom_of_too_long⟩
  obtain ⟨hreport, hmem⟩ := loadRom_of_fits (s := s) h
  have hlen : 0x0200 + bytes.length ≤ Config.memSize := by
    show 512 + bytes.length ≤ 4096
    omega
  have hw := State.resetWith_mem_wf s.cfg
  refine ⟨hreport, fun j hj => ?_, fun a ha => ?_, loadRomOp_eq bytes s⟩
  · rw [hmem, List.getElem?_eq_getElem hj, ← List.getD_eq_getElem bytes 0 hj]
    exact memRead_writeBytes_inside hw hlen hj
  · rw [hmem]
    exact memRead_writeBytes_outside hw hlen ha

end Sys2Proof.Machine
end

section
namespace Sys2Proof.Machine

/-! ## The stack, the offset jump, immediates and RANDOM (R180, R181, R188, R190, R191) -/

/-- What an update of `pc`, `sp`, `stack` and `cycles` leaves alone. -/
theorem stackUpdate_frame (s : State) (pc : Word) (sp : Fin 17) (stack : Vector Word 16) (c : Nat) :
    let t : State := { s with pc := pc, sp := sp, stack := stack, cycles := c }
    SameRegsBut [] s t ∧ t.i = s.i ∧ SameMemory s t ∧ SameTimers s t ∧ SameKeypad s t ∧
      SameDisplay s t ∧ SameControl s t ∧ t.randomDraws = s.randomDraws :=
  ⟨fun _ _ => rfl, rfl, fun _ => rfl, ⟨rfl, rfl⟩, ⟨rfl, rfl, rfl⟩,
    ⟨rfl, rfl, rfl, rfl, rfl, rfl, rfl⟩, ⟨rfl, rfl, rfl⟩, rfl⟩

theorem exec_ret_of_succ {s : State} {j : Nat} (h : j < 16) (hsp : s.sp.val = j + 1) :
    exec .ret s = .next { s with pc := s.stack[j]'h, sp := ⟨j, by omega⟩, cycles := s.cycles + 1 } := by
  simp only [exec, execRet, hsp]
  rfl

/-- Settles O26: the empty stack stops, a stack of `j + 1` entries is popped. -/
theorem retPopsTheStackIntoPc : Obligations.RetPopsTheStackIntoPc := fun s =>
  ⟨exec_ret_of_empty, fun _ h hsp =>
    ⟨_, exec_ret_of_succ h hsp, rfl, rfl, rfl, rfl, stackUpdate_frame s _ _ s.stack _⟩⟩

theorem exec_call_of_lt {s : State} (nnn : Addr) (h : s.sp.val < 16) :
    exec (.call nnn) s = .next { s with
      pc := nnn.toWord, sp := ⟨s.sp.val + 1, by omega⟩,
      stack := s.stack.set s.sp.val (s.pc + 2) h, cycles := s.cycles + 1 } :=
  dif_neg (Nat.ne_of_lt h)

/-- Settles O27: a full stack faults, any other is pushed. -/
theorem callPushesOrRaisesStackOverflow : Obligations.CallPushesOrRaisesStackOverflow := fun s nnn =>
  ⟨exec_call_of_full nnn, fun h =>
    ⟨_, exec_call_of_lt nnn h, rfl, Vector.getElem_set_self h,
      fun _ hj hne => Vector.getElem_set_ne h hj hne.symm, toNat_toWord nnn, rfl,
      stackUpdate_frame s _ _ _ _⟩⟩

/-- The offset jump's sum does not wrap: it is at most 0x10FE. -/
theorem toNat_addr_add_byte (nnn : Addr) (b : Byte) :
    (nnn.toWord + b.toWord).toNat = nnn.toNat + b.toNat := by
  have hn := nnn.isLt
  have hb := b.isLt
  have hbw : b.toWord.toNat = b.toNat := BitVec.toNat_setWidth_of_le (by decide)
  rw [BitVec.toNat_add, toNat_toWord, hbw, Nat.mod_eq_of_lt (by omega)]

theorem jumpOffset_eq (s : State) (x : Nibble) :
    jumpOffset s x = s.reg (if s.cfg.qJumpVx then x else 0) := by
  unfold jumpOffset
  split <;> rfl

/-- Settles O29: `pc` is the exact sum of the immediate and the offset register. -/
theorem jmpOffAddsTheOffsetRegister : Obligations.JmpOffAddsTheOffsetRegister := by
  intro s nnn
  have hexec : exec (.jmpOff nnn (nnn.extractLsb' 8 4)) s =
      retire (s.setPc (nnn.toWord + (jumpOffset s (nnn.extractLsb' 8 4)).toWord)) := rfl
  have hx : nnn.extractLsb' 8 4 = BitVec.ofNat 4 (nnn.toNat / 256) := by
    simp [BitVec.extractLsb', Nat.shiftRight_eq_div_pow]
  refine ⟨_, hexec, ?_, rfl, fun _ _ => rfl, rfl, .of_update s s.v _ s.i _⟩
  rw [← hx, ← jumpOffset_eq]
  exact toNat_addr_add_byte nnn _

/-- A byte sum is the sum of the numbers modulo 256. -/
theorem byte_add_eq (a b : Byte) : a + b = BitVec.ofNat 8 ((a.toNat + b.toNat) % 256) := by
  apply BitVec.eq_of_toNat_eq
  simp

/-- Settles O32: ADD_IMM retires the register load of the sum. -/
theorem addImmAddsWithoutAFlag : Obligations.AddImmAddsWithoutAFlag := by
  intro s x nn
  have hexec : exec (.addImm x nn) s = retire (s.advance.setReg x (s.reg x + nn)) := rfl
  refine ⟨_, hexec, ?_, .of_update s _ _ s.i _⟩
  rw [← byte_add_eq]
  exact loadsRegister_setReg s x (s.reg x + nn)

/-- Settles O34: RANDOM retires the register load of the masked draw and counts the draw. -/
theorem randomStoresOneMaskedDraw : Obligations.RandomStoresOneMaskedDraw := by
  intro s x nn
  obtain ⟨hx, hother, -⟩ := loadsRegister_setReg s x (drawByte s &&& nn)
  refine ⟨_, rfl, fun b _ => ?_, rfl, hother, rfl, rfl, rfl, fun _ => rfl, ⟨rfl, rfl⟩, ⟨rfl, rfl⟩,
    ⟨rfl, rfl, rfl⟩, ⟨rfl, rfl, rfl, rfl, rfl, rfl, rfl⟩, ⟨rfl, rfl, rfl⟩⟩
  refine (congrArg (·.getLsbD b) hx).trans ?_
  rw [BitVec.getLsbD_and, Bool.and_comm]
  rfl

end Sys2Proof.Machine
end

section
namespace Sys2Proof.Machine

/-! ## The ALU family (R140 to R149) -/

/-- Settles O35: MOV is the write-back of `V[y]` with MOV's flag. -/
theorem movCopiesTheRegister : Obligations.MovCopiesTheRegister := fun s x y =>
  aluStep_result s x (s.reg y) (movFlag s.cfg)

/-- A write-back of a result whose bits are known. -/
theorem aluStep_result_bits (s : State) (x : Nibble) (r : Byte) (f : Option Bool) {bit : Nat → Bool}
    (hr : ∀ b, r.getLsbD b = bit b) :
    ∃ t q, aluStep s x r f = .next t ∧ AluResult s t x q f ∧ ∀ b, b < 8 → q.getLsbD b = bit b := by
  obtain ⟨t, ht, hres⟩ := aluStep_result s x r f
  exact ⟨t, r, ht, hres, fun b _ => hr b⟩

/-- Settles O36: each of the three is the write-back of its bitwise result. -/
theorem bitwiseOperationsCombineEveryBit : Obligations.BitwiseOperationsCombineEveryBit := fun s x _ =>
  ⟨aluStep_result_bits s x _ (bitwiseFlag s.cfg) fun _ => BitVec.getLsbD_or,
    aluStep_result_bits s x _ (bitwiseFlag s.cfg) fun _ => BitVec.getLsbD_and,
    aluStep_result_bits s x _ (bitwiseFlag s.cfg) fun _ => BitVec.getLsbD_xor⟩

/-- A write-back whose result and flag are given in another form. -/
theorem aluStep_result_of_eq (s : State) (x : Nibble) {r r' : Byte} {f f' : Bool} (hr : r = r')
    (hf : f = f') : ∃ t, aluStep s x r (some f) = .next t ∧ AluResult s t x r' (some f') := by
  subst hr hf
  exact aluStep_result s x r (some f)

/-- The sum wrapped iff it is below an operand. -/
theorem addFlag_eq (a b : Byte) : addFlag a b = decide (255 < a.toNat + b.toNat) := by
  unfold addFlag
  rw [decide_eq_decide, BitVec.lt_def, BitVec.toNat_add]
  have := a.isLt
  have := b.isLt
  omega

/-- Settles O37: ADD is the write-back of the sum with the carry. -/
theorem addSetsTheCarryFlag : Obligations.AddSetsTheCarryFlag := fun s x _ =>
  aluStep_result_of_eq s x (byte_add_eq _ _) (addFlag_eq _ _)

theorem byte_sub_eq (a b : Byte) : a - b = BitVec.ofInt 8 (a.toNat - b.toNat : Int) := by
  apply BitVec.eq_of_toNat_eq
  have := a.isLt
  have := b.isLt
  simp
  omega

/-- Settles O38: both are write-backs of a difference; their flags are the comparisons themselves. -/
theorem subAndRsubSetTheNoBorrowFlag : Obligations.SubAndRsubSetTheNoBorrowFlag := fun s x _ =>
  ⟨aluStep_result_of_eq s x (byte_sub_eq _ _) rfl, aluStep_result_of_eq s x (byte_sub_eq _ _) rfl⟩

theorem shiftRight_one_eq (a : Byte) : a >>> 1 = BitVec.ofNat 8 (a.toNat / 2) := by
  apply BitVec.eq_of_toNat_eq
  have := a.isLt
  simp [Nat.shiftRight_eq_div_pow]
  omega

theorem shiftLeft_one_eq (a : Byte) : a <<< 1 = BitVec.ofNat 8 (2 * a.toNat % 256) := by
  apply BitVec.eq_of_toNat_eq
  simp [Nat.shiftLeft_eq, Nat.mul_comm]

theorem shrFlag_eq (a : Byte) : shrFlag a = decide (a.toNat % 2 = 1) := by
  simp [shrFlag, BitVec.getLsbD, Nat.testBit_zero]

theorem shlFlag_eq (a : Byte) : shlFlag a = decide (128 ≤ a.toNat) := by
  exact (BitVec.msb_eq_getLsbD_last a).symm.trans (BitVec.msb_eq_decide a)

/-- Settles O39: both are write-backs of the shifted source with the bit it loses. -/
theorem shiftsMoveOneBitIntoTheFlag : Obligations.ShiftsMoveOneBitIntoTheFlag := by
  rintro s x y a ha
  obtain rfl : a = shiftSource s x y := ha
  exact ⟨aluStep_result_of_eq s x (shiftRight_one_eq _) (shrFlag_eq _),
    aluStep_result_of_eq s x (shiftLeft_one_eq _) (shlFlag_eq _)⟩

end Sys2Proof.Machine
end

section
namespace Sys2Proof.Machine

/-! ## The display family (R160 to R167) -/

/-- Settles O44: CLS retires the next instruction's state with a blank frame. -/
theorem clsClearsEveryPixelAndNothingElse : Obligations.ClsClearsEveryPixelAndNothingElse := by
  intro s
  have hexec : exec .cls s = retire { s.advance with fb := blankFrame } := rfl
  exact ⟨_, hexec, pixelAt_blankFrame, rfl, rfl, fun _ _ => rfl, rfl, fun _ => rfl, ⟨rfl, rfl⟩,
    ⟨rfl, rfl⟩, ⟨rfl, rfl, rfl⟩, ⟨rfl, rfl, rfl, rfl, rfl, rfl⟩, ⟨rfl, rfl, rfl⟩, rfl⟩

/-- Settles O40: behind a shut gate a latched sprite is held as it is, and one that can be latched is
latched and held. -/
theorem drawLatchesAndHoldsWhileTheGateIsShut : Obligations.DrawLatchesAndHoldsWhileTheGateIsShut := by
  intro s x y n hq hv
  constructor
  · intro hd
    exact (exec_draw_of_latched x y n hd).trans (gateAndRender_of_shut (s := s.advance) hq hv)
  · intro hd hr
    have hexec := (exec_draw_of_rangeOk x y n hd ((rangeOk_iff _ _).mpr hr)).trans
      (gateAndRender_of_shut (s0 := s) (s := s.advance.latchSprite x y n) hq hv)
    exact ⟨_, hexec, latchedSprite_latchSprite s.advance x y n, rfl, rfl, hv, rfl, rfl, rfl,
      fun _ _ => rfl, rfl, fun _ => rfl, ⟨rfl, rfl⟩, ⟨rfl, rfl⟩, ⟨rfl, rfl, rfl⟩, ⟨rfl, rfl, rfl⟩, rfl⟩

/-- `u` is `s` past the fetch with a sprite in the adapter's latch: what phases 2 and 3 of a DRAW start from. -/
def HoldsSprite (s u : State) (sp : Sprite) : Prop :=
  ∃ spX spY spN spBuf, u = { s.advance with
    spX := spX, spY := spY, spN := spN, spBuf := spBuf, dataReady := true } ∧ latchedSprite u = sp

/-- A DRAW that does not fault goes on to the gate with its sprite latched. -/
theorem exec_draw_eq_gateAndRender {s : State} (x y n : Nibble)
    (h : s.dataReady = true ∨ n.toNat = 0 ∨ s.i.toNat + n.toNat ≤ Config.memSize) :
    ∃ u, exec (.draw x y n) s = gateAndRender s u ∧ HoldsSprite s u (spriteOf s x y n) := by
  cases hd : s.dataReady with
  | true =>
    refine ⟨s.advance, exec_draw_of_latched x y n hd, s.spX, s.spY, s.spN, s.spBuf, ?_, ?_⟩
    · rw [← hd]; rfl
    · simp [spriteOf, hd]; rfl
  | false =>
    have hr := (rangeOk_iff _ _).mpr (h.resolve_left (by simp [hd]))
    refine ⟨_, exec_draw_of_rangeOk x y n hd hr, _, _, _, _, rfl, ?_⟩
    refine (latchedSprite_latchSprite s.advance x y n).trans ?_
    simp [spriteOf, hd]

/-- Settles O41: with the gate open the latched sprite is rendered, which toggles the pixels it covers. -/
theorem drawTogglesExactlyTheCoveredPixels : Obligations.DrawTogglesExactlyTheCoveredPixels := by
  intro s x y n hgate h
  obtain ⟨u, he, spX, spY, spN, spBuf, hu, hsprite⟩ := exec_draw_eq_gateAndRender x y n h
  have hopen : u.cfg.qVblankWait = false ∨ u.vblankReady = true := by rw [hu]; exact hgate
  have hcfg : u.cfg = s.cfg := by rw [hu]; rfl
  have hfb : u.fb = s.fb := by rw [hu]; rfl
  obtain ⟨hpix, hvf, hbyte⟩ := renderLatched_result u
  rw [hsprite, hcfg, hfb] at hpix hvf
  refine ⟨_, he.trans (gateAndRender_of_open hopen), hpix, hvf, hbyte, ?_⟩
  have hother : SameRegsBut [15] s u.renderLatched := fun z hz =>
    (State.reg_setReg_of_ne u _ (by simpa using hz)).trans (by rw [hu]; rfl)
  have hlatched : latchedSprite u.renderLatched = spriteOf s x y n := hsprite
  refine ⟨hother, rfl, rfl, hlatched, ?_⟩
  rw [hu]
  exact ⟨rfl, rfl, rfl, fun _ => rfl, ⟨rfl, rfl⟩, ⟨rfl, rfl⟩, ⟨rfl, rfl, rfl⟩, ⟨rfl, rfl, rfl⟩, rfl⟩

/-- Settles O42: the latch phase checks the range, and neither a hold nor a render touches the latch. -/
theorem drawFaultsOnlyWhenItLatchesOutsideTheBank :
    Obligations.DrawFaultsOnlyWhenItLatchesOutsideTheBank := by
  intro s x y n
  constructor
  · intro hd hn hi
    exact exec_of_raises_invalidAddress (i := .draw x y n) ⟨hd, hn, hi⟩
  · intro hs h
    obtain ⟨u, he, spX, spY, spN, spBuf, hu, -⟩ := exec_draw_eq_gateAndRender x y n h
    have hfault : u.fault = none := by rw [hu]; exact hs
    rw [he]
    unfold gateAndRender
    split
    · exact ⟨_, rfl, hfault⟩
    · exact ⟨_, rfl, hfault⟩

/-- Settles O43: the trigger opens the gate and leaves `pc` and memory, so the same DRAW is presented. -/
theorem vblankCompletesAPendingDraw : Obligations.VblankCompletesAPendingDraw := by
  intro s x y n hs hp hd
  have hp' : presented (vblankTriggerOp s) = some (.draw x y n) := (presented_congr rfl rfl).trans hp
  have hexec := (step_of_presented (s := vblankTriggerOp s) hs hp').trans <|
    (exec_draw_of_latched (s := vblankTriggerOp s) x y n hd).trans
      (gateAndRender_of_open (s := (vblankTriggerOp s).advance) (.inr rfl))
  exact ⟨_, hexec, ⟨hs, hs, rfl⟩, rfl, rfl, rfl⟩

end Sys2Proof.Machine
end

section
namespace Sys2Proof.Machine

/-! ## Keys, the index register and the font (R200, R201, R203, R206, R207, R212) -/

theorem retire_skipIf_result_of_iff (s : State) {b : Bool} {c : Prop} (h : b = true ↔ c) :
    ∃ t, retire (s.advance.skipIf b) = .next t ∧ SkipResult s t c :=
  ⟨_, rfl, skipResult_skipIf s h⟩

/-- Settles O45: a number with a meaning picks the flag that decides the skip; any other is refused. -/
theorem keySkipsTestTheLiveKeyFlag : Obligations.KeySkipsTestTheLiveKeyFlag := by
  intro s x
  refine ⟨fun h => ?_, fun hx hp => ?_⟩
  · have hk := keyOrGlyph_eq_some h
    rw [exec_skipKey_of_some hk, exec_skipNkey_of_some hk]
    exact ⟨retire_skipIf_result_of_iff s Iff.rfl, retire_skipIf_result_of_iff s (by simp)⟩
  · exact ⟨exec_of_selectsByReg (.inl rfl) hp hx, exec_of_selectsByReg (.inr (.inl rfl)) hp hx⟩

/-- Settles O47: WAIT_KEY with a release retires the register load of the key's number, the wait off. -/
theorem waitKeyStoresTheReleasedKey : Obligations.WaitKeyStoresTheReleasedKey := by
  intro s x k hw hk
  have hbyte : k.toByte = BitVec.ofNat 8 k.toNat := by
    apply BitVec.eq_of_toNat_eq
    simp
  obtain ⟨hx, hother, -⟩ := loadsRegister_setReg s x k.toByte
  exact ⟨_, exec_waitKey_of_release x hw hk, ⟨hbyte ▸ hx, hother, rfl, rfl, rfl⟩, rfl, rfl, rfl,
    fun _ => rfl, ⟨rfl, rfl⟩, ⟨rfl, rfl⟩, ⟨rfl, rfl, rfl, rfl, rfl, rfl, rfl⟩, ⟨rfl, rfl, rfl⟩, rfl⟩

/-- Settles O49: ADD_INDEX retires the 16-bit sum in `I`. -/
theorem addIndexWrapsAtSixteenBits : Obligations.AddIndexWrapsAtSixteenBits := by
  intro s x
  have hexec : exec (.addIndex x) s = retire (s.advance.setI (s.i + (s.reg x).toWord)) := rfl
  have hsum : (s.i + (s.reg x).toWord).toNat = (s.i.toNat + (s.reg x).toNat) % 65536 := by simp
  exact ⟨_, hexec, hsum, rfl, rfl, fun _ _ => rfl, .of_update s s.v _ _ _⟩

/-- Settles O50: a number with a meaning gives the glyph's address; any other is refused. -/
theorem fontComputesTheGlyphAddress : Obligations.FontComputesTheGlyphAddress := by
  intro s x
  refine ⟨fun h => ?_, fun hx hp => exec_of_selectsByReg (.inr (.inr rfl)) hp hx⟩
  have haddr : (BitVec.ofNat 16 (Config.fontBase + Config.fontGlyphBytes *
      (BitVec.ofNat 4 ((s.reg x).toNat % 16)).toNat)).toNat = 0x0050 + 5 * ((s.reg x).toNat % 16) := by
    simp [Config.fontBase, Config.fontGlyphBytes]
    omega
  exact ⟨_, exec_font_of_some (keyOrGlyph_eq_some h), haddr, rfl, rfl, fun _ _ => rfl,
    .of_update s s.v _ _ _⟩

end Sys2Proof.Machine
end

section
namespace Sys2Proof.Machine

/-! ## BCD and the register block (R208, R209, R210) -/

/-- Settles O51: the three digits are written as one block inside the bank, or the latch is set. -/
theorem bcdStoresTheThreeDecimalDigits : Obligations.BcdStoresTheThreeDecimalDigits := by
  intro s x hw
  constructor
  · intro hi
    have hexec := exec_bcd_of_rangeOk x ((rangeOk_succ_iff s.i.toNat 2).mpr hi)
    have hfit := bcdDigits_fits (s.reg x) hi
    have hin := fun (j : Nat) (hj : j < 3) => memRead_writeBytes_inside hw hfit (j := j) hj
    refine ⟨_, (s.reg x).toNat / 100, (s.reg x).toNat / 10 % 10, (s.reg x).toNat % 10, hexec,
      by omega, ?_, by omega, by omega, hin 0 (by decide), hin 1 (by decide), hin 2 (by decide),
      fun b hb => memRead_writeBytes_outside hw hfit hb, rfl, rfl, fun _ _ => rfl, rfl, ⟨rfl, rfl⟩,
      ⟨rfl, rfl⟩, ⟨rfl, rfl, rfl⟩, ⟨rfl, rfl, rfl, rfl, rfl, rfl, rfl⟩, ⟨rfl, rfl, rfl⟩, rfl⟩
    have := (s.reg x).isLt
    omega
  · exact exec_of_raises_invalidAddress (i := .bcd x)

/-- The stored block reads back, register by register. -/
theorem memRead_stored {s : State} {x r : Nibble} (hw : s.mem.wf = true)
    (h : s.i.toNat + x.toNat < Config.memSize) (hr : r ≤ x) :
    memRead (s.stored x).mem (s.i.toNat + r.toNat) = some (s.reg r) := by
  have hlt : r.toNat < (regsUpTo s x).length := by
    rw [length_regsUpTo]
    exact Nat.lt_succ_of_le hr
  rw [← getD_regsUpTo s hr, stored_mem]
  exact memRead_writeBytes_inside hw (regsUpTo_fits h) hlt

theorem memRead_stored_outside {s : State} {x : Nibble} (hw : s.mem.wf = true)
    (h : s.i.toNat + x.toNat < Config.memSize) :
    SameMemoryOutside s.i.toNat (x.toNat + 1) s (s.stored x) := by
  intro b hb
  rw [stored_mem]
  exact memRead_writeBytes_outside hw (regsUpTo_fits h) (by rwa [length_regsUpTo])

/-- Settles O52: the block is written inside the bank, or the latch is set. -/
theorem storeWritesTheRegisterBlock : Obligations.StoreWritesTheRegisterBlock := by
  intro s x hw
  refine ⟨fun hi => ?_, exec_of_raises_invalidAddress (i := .store x)⟩
  exact ⟨_, exec_store_of_lt hi, fun r => memRead_stored hw hi, memRead_stored_outside hw hi,
    toNat_autoIncrement_i _ x, autoIncrement_pc _ x, autoIncrement_cycles _ x,
    fun z _ => State.reg_autoIncrement _ x z, ⟨autoIncrement_stack _ x, autoIncrement_sp _ x⟩,
    ⟨autoIncrement_dt _ x, autoIncrement_st _ x⟩,
    ⟨autoIncrement_keys _ x, autoIncrement_lastEdge _ x, autoIncrement_keyWait _ x⟩,
    ⟨autoIncrement_fb _ x, autoIncrement_dataReady _ x, autoIncrement_vblankReady _ x,
      autoIncrement_spX _ x, autoIncrement_spY _ x, autoIncrement_spN _ x, autoIncrement_spBuf _ x⟩,
    ⟨autoIncrement_cfg _ x, autoIncrement_bankSel _ x, autoIncrement_fault _ x⟩,
    autoIncrement_randomDraws _ x⟩

/-- Settles O53: the registers up to `x` are the block's bytes, or the latch is set. -/
theorem loadReadsTheRegisterBlock : Obligations.LoadReadsTheRegisterBlock := by
  intro s x
  refine ⟨fun hi => ?_, exec_of_raises_invalidAddress (i := .load x)⟩
  refine ⟨_, exec_load_of_lt hi, fun r hr => ?_, fun r hr => ?_, toNat_autoIncrement_i _ x,
    autoIncrement_pc _ x, autoIncrement_cycles _ x, ?_⟩
  · have hin : s.i.toNat + r.toNat < Config.memSize := by bv_omega
    rw [memRead_of_lt hin, reg_loaded, if_pos hr]
  · rw [reg_loaded, if_neg (by bv_omega)]
  · apply RestUnchanged.of_fields <;> simp [State.loaded, SameLatch, SameControl]

/-- Settles O54: the loaded byte is the stored register, read back from the same address. -/
theorem storeThenLoadRestoresTheRegisters : Obligations.StoreThenLoadRestoresTheRegisters := by
  intro s t u x hw hi hstore hmem hui hcfg
  obtain rfl : s.stored x = t := by simpa [exec_store_of_lt hi] using hstore
  have hload : u.i.toNat + x.toNat < Config.memSize := by rwa [hui]
  refine ⟨_, exec_load_of_lt hload, fun r hr => ?_, autoIncrement_i _ x, ?_⟩
  · have hread := memRead_stored hw hi hr
    have hin : s.i.toNat + r.toNat < Config.memSize := by bv_omega
    rw [memRead_of_lt hin, Option.some.injEq] at hread
    rw [reg_loaded, if_pos hr, hmem, hui, hread]
  · simp [State.loaded, State.stored, autoIncrement_i, hui, hcfg]

end Sys2Proof.Machine
end

section
namespace Sys2Proof.Machine

/-! ## The host's key events, the trigger and the read-outs (R234, R235, R237 to R239) -/

theorem getElem_set_nibble {α : Type} (v : Vector α 16) (k j : Nibble) (b : α) :
    (v.set k.toNat b k.isLt)[j.toNat]'j.isLt = if j = k then b else v[j.toNat]'j.isLt := by
  rw [Vector.getElem_set]
  simp only [BitVec.toNat_inj, eq_comm]

/-- Settles O56: the flag written is read at its own key alone. -/
theorem keyEventsSetOneFlagAndTheEdge : Obligations.KeyEventsSetOneFlagAndTheEdge := by
  intro s k j
  refine ⟨?_, rfl, rfl, ?_, rfl, rfl⟩
  · refine (getElem_set_nibble s.keys k j true).trans ?_
    split <;> simp_all [State.keyDown]
  · refine (getElem_set_nibble s.keys k j false).trans ?_
    split <;> simp_all [State.keyDown]

/-- Settles O59: the latch alone is written, and writing it again gives the same state. -/
theorem vblankTriggerSetsItsLatchAlone : Obligations.VblankTriggerSetsItsLatchAlone :=
  fun _ => ⟨rfl, rfl, rfl, rfl⟩

/-- Rows of one length laid end to end: element `y * w + x` is element `x` of row `y`. -/
theorem getElem?_flatMap_of_width {α β : Type} {w : Nat} (row : α → List β)
    (hw : ∀ a, (row a).length = w) (as : List α) (y : Nat) {x : Nat} (hx : x < w) :
    (as.flatMap row)[y * w + x]? = as[y]?.bind fun a => (row a)[x]? := by
  induction as generalizing y with
  | nil => simp
  | cons a as ih =>
    rw [List.flatMap_cons]
    cases y with
    | zero =>
      have hfirst : 0 * w + x = x := by omega
      rw [hfirst, List.getElem?_append_left (by rwa [hw])]
      rfl
    | succ y =>
      have hsplit : (y + 1) * w + x = w + (y * w + x) := by rw [Nat.succ_mul]; omega
      rw [hsplit, List.getElem?_append_right (by rw [hw]; omega), hw, Nat.add_sub_cancel_left, ih]
      rfl

theorem length_outputRow (row : Vector Bool 64) : (row.toList.map flagByte).length = 64 := by simp

theorem getElem?_outputBuffer (s : State) {y x : Nat} (hy : y < 32) (hx : x < 64) :
    (outputBuffer s)[y * 64 + x]? = some (flagByte (pixelAt s.fb y x)) := by
  refine (getElem?_flatMap_of_width _ length_outputRow s.fb.toList y hx).trans ?_
  simp [pixelAt, hy, hx]

/-- Settles O58: the buffer is the rows' 64 bytes each, laid end to end. -/
theorem readOutsShowThePixelsAndTheSoundTimer : Obligations.ReadOutsShowThePixelsAndTheSoundTimer := by
  intro s
  have hlen : (outputBuffer s).length = 2048 := by
    simp only [outputBuffer, List.length_flatMap, length_outputRow]
    simp
  exact ⟨hlen, fun y x => getElem?_outputBuffer s, rfl, rfl, rfl, rfl⟩

end Sys2Proof.Machine
end
